-- ==== Sys2Proof/Word.lean ====
section
/-! DEFINITION. The widths of the machine's values. All of them are unsigned (spec/00_scope.md R7); arithmetic
on a `Word` or a `Byte` wraps at its width (R9, R22). -/

namespace Sys2Proof

/-- 8 bits: a general register or a byte of Memory (spec/10_state.md R20, spec/20_memory.md R50). -/
abbrev Byte := BitVec 8

/-- 16 bits: the program counter, the index register, a stack entry, an instruction word
(spec/10_state.md R24, R31, R34; spec/30_encoding.md R80). -/
abbrev Word := BitVec 16

/-- 4 bits: the fields `OP` and `N` of an instruction word (spec/30_encoding.md R81). -/
abbrev Nibble := BitVec 4

/-- 12 bits: the immediate address `NNN` of an instruction word (spec/30_encoding.md R81). -/
abbrev Addr12 := BitVec 12

/-- The number of a general register, 0 to 15 (spec/10_state.md R20; spec/30_encoding.md R81: all sixteen values
of the fields `X` and `Y` are legal). -/
abbrev RegIdx := Fin 16

end Sys2Proof
end

