-- ==== Sys2Proof/Syntax.lean ====
section
/-! DEFINITION. The instructions: one constructor for each of the 28 rows of spec/opcode_table.json
(spec/40_decode_dispatch.md R110), with every field of the row, the ignored ones too, so that no bit of a word is lost. -/

namespace Sys2Proof

/-- A decoded instruction. The row's name in the table stands in each docstring. -/
inductive Instr where
  /-- `NOP`, `0000`: the explicit no-op (R112). -/
  | nop
  /-- `CLS`, `00E0`: clear display (R180). -/
  | cls
  /-- `RET`, `00EE`: return from subroutine (R132). -/
  | ret
  /-- `SYS`, any other `0NNN`: unsupported operation of group `0x0` (R113). -/
  | sys (nnn : Addr12)
  /-- `JP`, `1NNN`: unconditional jump (R130). -/
  | jp (nnn : Addr12)
  /-- `CALL`, `2NNN`: call subroutine (R131). -/
  | call (nnn : Addr12)
  /-- `SE_IMM`, `3XNN`: skip if register equals immediate (R133). -/
  | seImm (x : RegIdx) (nn : Byte)
  /-- `SNE_IMM`, `4XNN`: skip if register does not equal immediate (R134). -/
  | sneImm (x : RegIdx) (nn : Byte)
  /-- `SE_REG`, `5XYN`: skip if registers are equal; `n` is ignored (R91, R135). -/
  | seReg (x y : RegIdx) (n : Nibble)
  /-- `LD_IMM`, `6XNN`: set register to immediate (R150). -/
  | ldImm (x : RegIdx) (nn : Byte)
  /-- `ADD_IMM`, `7XNN`: add immediate to register (R151). -/
  | addImm (x : RegIdx) (nn : Byte)
  /-- `UNIMPL_8`, `8XYN`: unimplemented arithmetic group (R114). -/
  | unimpl8 (x y : RegIdx) (n : Nibble)
  /-- `UNIMPL_9`, `9XYN`: unimplemented register-inequality skip (R115). -/
  | unimpl9 (x y : RegIdx) (n : Nibble)
  /-- `LD_I`, `ANNN`: set index register (R160). -/
  | ldI (nnn : Addr12)
  /-- `UNIMPL_B`, `BNNN`: unimplemented indexed jump (R116). -/
  | unimplB (nnn : Addr12)
  /-- `UNIMPL_C`, `CXNN`: unimplemented randomized set (R117). -/
  | unimplC (x : RegIdx) (nn : Byte)
  /-- `DRW`, `DXYN`: draw sprite (R182). -/
  | drw (x y : RegIdx) (n : Nibble)
  /-- `UNIMPL_E`, `EXNN`: unimplemented key-state skip (R118). -/
  | unimplE (x : RegIdx) (nn : Byte)
  /-- `LD_VX_DT`, `FX07`: timer read, out of scope (R119). -/
  | ldVxDt (x : RegIdx)
  /-- `LD_VX_K`, `FX0A`: key wait, out of scope (R120). -/
  | ldVxK (x : RegIdx)
  /-- `LD_DT_VX`, `FX15`: delay timer write, out of scope (R121). -/
  | ldDtVx (x : RegIdx)
  /-- `LD_ST_VX`, `FX18`: sound timer write, out of scope (R122). -/
  | ldStVx (x : RegIdx)
  /-- `ADD_I_VX`, `FX1E`: add register to index register (R162). -/
  | addIVx (x : RegIdx)
  /-- `LD_F_VX`, `FX29`: font-character lookup (R163). -/
  | ldFVx (x : RegIdx)
  /-- `LD_B_VX`, `FX33`: BCD store (R164). -/
  | ldBVx (x : RegIdx)
  /-- `LD_I_VX`, `FX55`: register-range dump (R165). -/
  | ldIVx (x : RegIdx)
  /-- `LD_VX_I`, `FX65`: register-range restore (R166). -/
  | ldVxI (x : RegIdx)
  /-- `F_UNKNOWN`, any other `FXNN`: unrecognised secondary selector (R123). -/
  | fUnknown (x : RegIdx) (nn : Byte)
  deriving DecidableEq, Repr

end Sys2Proof
end

