-- ==== Sys2Proof/WellFormed.lean ====
section
/-! DEFINITION. Which instructions are the reading of some word: the two catch-all rows of the table must not name a word
that a more specific row takes (spec/30_encoding.md R89, the `except` lists). Every other field is legal at every value of
its width (R83). -/

namespace Sys2Proof

/-- The `NNN` fields that the `SYS` row excepts: the words `0000`, `00E0`, `00EE` (spec/30_encoding.md R87, R89). -/
def sysExcept : List Addr12 := [0x000#12, 0x0E0#12, 0x0EE#12]

/-- The low bytes that the `F_UNKNOWN` row excepts: the nine operations of group `0xF` (spec/30_encoding.md R88, R89). -/
def fExcept : List Byte := [0x07#8, 0x0A#8, 0x15#8, 0x18#8, 0x1E#8, 0x29#8, 0x33#8, 0x55#8, 0x65#8]

/-- The instruction is the reading of a word: its two catch-all forms name none of the excepted words. -/
def Instr.wellFormed : Instr → Bool
  | .sys nnn => !sysExcept.contains nnn
  | .fUnknown _ nn => !fExcept.contains nn
  | .nop | .cls | .ret => true
  | .jp _ | .call _ | .ldI _ | .unimplB _ => true
  | .seImm _ _ | .sneImm _ _ | .ldImm _ _ | .addImm _ _ | .unimplC _ _ | .unimplE _ _ => true
  | .seReg _ _ _ | .unimpl8 _ _ _ | .unimpl9 _ _ _ | .drw _ _ _ => true
  | .ldVxDt _ | .ldVxK _ | .ldDtVx _ | .ldStVx _ => true
  | .addIVx _ | .ldFVx _ | .ldBVx _ | .ldIVx _ | .ldVxI _ => true

end Sys2Proof
end

