-- ==== Sys2Proof/Decode.lean ====
section
/-! DEFINITION. Decoding and encoding of the 16-bit instruction word (spec/30_encoding.md). Decoding is total on words
(R89, R90) and reads no state (R84). The numbering of the opcodes is the standard CHIP-8 one, PRESUMED: the spec takes it from
general knowledge (R85, GK1; notes/assumptions/2.md). -/

namespace Sys2Proof

/-- `OP = w[15:12]`, the primary selector (spec/30_encoding.md R81). -/
def opField (w : Word) : Nibble := w.extractLsb' 12 4

/-- `X = w[11:8]`, a register number (spec/30_encoding.md R81). -/
def xField (w : Word) : RegIdx := (w.extractLsb' 8 4).toFin

/-- `Y = w[7:4]`, a register number (spec/30_encoding.md R81). -/
def yField (w : Word) : RegIdx := (w.extractLsb' 4 4).toFin

/-- `N = w[3:0]`, the immediate nibble (spec/30_encoding.md R81). -/
def nField (w : Word) : Nibble := w.extractLsb' 0 4

/-- `NN = w[7:0]`, the immediate byte (spec/30_encoding.md R81). -/
def nnField (w : Word) : Byte := w.extractLsb' 0 8

/-- `NNN = w[11:0]`, the immediate address (spec/30_encoding.md R81). -/
def nnnField (w : Word) : Addr12 := w.extractLsb' 0 12

/-- Group `0x0`: three literal words, every other word is `SYS` (spec/30_encoding.md R87). -/
def decodeGroup0 (w : Word) : Instr :=
  if w = 0x0000#16 then .nop
  else if w = 0x00E0#16 then .cls
  else if w = 0x00EE#16 then .ret
  else .sys (nnnField w)

/-- Group `0xF`: nine low bytes, every other low byte is unrecognised (spec/30_encoding.md R88). -/
def decodeGroupF (w : Word) : Instr :=
  let x := xField w
  let nn := nnField w
  if nn = 0x07#8 then .ldVxDt x
  else if nn = 0x0A#8 then .ldVxK x
  else if nn = 0x15#8 then .ldDtVx x
  else if nn = 0x18#8 then .ldStVx x
  else if nn = 0x1E#8 then .addIVx x
  else if nn = 0x29#8 then .ldFVx x
  else if nn = 0x33#8 then .ldBVx x
  else if nn = 0x55#8 then .ldIVx x
  else if nn = 0x65#8 then .ldVxI x
  else .fUnknown x nn

/-- The instruction of a word: dispatch on the primary selector (spec/30_encoding.md R84, R86). The selector
left to the last line is `0xF`. -/
def decodeWord (w : Word) : Instr :=
  match opField w with
  | 0x0#4 => decodeGroup0 w
  | 0x1#4 => .jp (nnnField w)
  | 0x2#4 => .call (nnnField w)
  | 0x3#4 => .seImm (xField w) (nnField w)
  | 0x4#4 => .sneImm (xField w) (nnField w)
  | 0x5#4 => .seReg (xField w) (yField w) (nField w)
  | 0x6#4 => .ldImm (xField w) (nnField w)
  | 0x7#4 => .addImm (xField w) (nnField w)
  | 0x8#4 => .unimpl8 (xField w) (yField w) (nField w)
  | 0x9#4 => .unimpl9 (xField w) (yField w) (nField w)
  | 0xA#4 => .ldI (nnnField w)
  | 0xB#4 => .unimplB (nnnField w)
  | 0xC#4 => .unimplC (xField w) (nnField w)
  | 0xD#4 => .drw (xField w) (yField w) (nField w)
  | 0xE#4 => .unimplE (xField w) (nnField w)
  | _ => decodeGroupF w

/-- Why a sequence of bytes is not the start of an instruction. -/
inductive DecodeError where
  /-- Fewer than the two bytes of an instruction (spec/30_encoding.md R80). Safe: no word is read (notes/assumptions/29.md). -/
  | truncated
  deriving DecidableEq, Repr

/-- The word whose bytes are `hi`, at the lower address, and `lo` (spec/20_memory.md R53, R56: big-endian). -/
def joinWord (hi lo : Byte) : Word := hi ++ lo

/-- Bits 15 to 8 of a word, the byte at the lower address (spec/20_memory.md R56). -/
def hiByte (w : Word) : Byte := w.extractLsb' 8 8

/-- Bits 7 to 0 of a word, the byte at the higher address (spec/20_memory.md R56). -/
def loByte (w : Word) : Byte := w.extractLsb' 0 8

/-- The first instruction of a sequence of bytes, with the bytes after it. -/
def decode : List Byte → Except DecodeError (Instr × List Byte)
  | hi :: lo :: rest => .ok (decodeWord (joinWord hi lo), rest)
  | [] => .error .truncated
  | [_] => .error .truncated

/-- Formats `XNN` and `FX`: `OP X NN` (spec/30_encoding.md R82). -/
def packXNN (op : Nibble) (x : RegIdx) (nn : Byte) : Word := op ++ (BitVec.ofFin x : Nibble) ++ nn

/-- Formats `XY` and `XYN`: `OP X Y N` (spec/30_encoding.md R82). -/
def packXYN (op : Nibble) (x y : RegIdx) (n : Nibble) : Word :=
  op ++ (BitVec.ofFin x : Nibble) ++ (BitVec.ofFin y : Nibble) ++ n

/-- Format `ADDR`: `OP NNN` (spec/30_encoding.md R82). -/
def packNNN (op : Nibble) (nnn : Addr12) : Word := op ++ nnn

/-- The word of a well-formed instruction (spec/30_encoding.md R86 to R88). -/
def encode : Instr → Word
  | .nop => 0x0000#16
  | .cls => 0x00E0#16
  | .ret => 0x00EE#16
  | .sys nnn => packNNN 0x0#4 nnn
  | .jp nnn => packNNN 0x1#4 nnn
  | .call nnn => packNNN 0x2#4 nnn
  | .seImm x nn => packXNN 0x3#4 x nn
  | .sneImm x nn => packXNN 0x4#4 x nn
  | .seReg x y n => packXYN 0x5#4 x y n
  | .ldImm x nn => packXNN 0x6#4 x nn
  | .addImm x nn => packXNN 0x7#4 x nn
  | .unimpl8 x y n => packXYN 0x8#4 x y n
  | .unimpl9 x y n => packXYN 0x9#4 x y n
  | .ldI nnn => packNNN 0xA#4 nnn
  | .unimplB nnn => packNNN 0xB#4 nnn
  | .unimplC x nn => packXNN 0xC#4 x nn
  | .drw x y n => packXYN 0xD#4 x y n
  | .unimplE x nn => packXNN 0xE#4 x nn
  | .ldVxDt x => packXNN 0xF#4 x 0x07#8
  | .ldVxK x => packXNN 0xF#4 x 0x0A#8
  | .ldDtVx x => packXNN 0xF#4 x 0x15#8
  | .ldStVx x => packXNN 0xF#4 x 0x18#8
  | .addIVx x => packXNN 0xF#4 x 0x1E#8
  | .ldFVx x => packXNN 0xF#4 x 0x29#8
  | .ldBVx x => packXNN 0xF#4 x 0x33#8
  | .ldIVx x => packXNN 0xF#4 x 0x55#8
  | .ldVxI x => packXNN 0xF#4 x 0x65#8
  | .fUnknown x nn => packXNN 0xF#4 x nn

/-- The bytes of an instruction as Memory holds them, lowest address first (spec/20_memory.md R56). -/
def encodeBytes (i : Instr) : List Byte := [hiByte (encode i), loByte (encode i)]

/-- The name of the row of spec/opcode_table.json an instruction belongs to (spec/30_encoding.md R89). -/
def Instr.rowName : Instr → String
  | .nop => "NOP"
  | .cls => "CLS"
  | .ret => "RET"
  | .sys _ => "SYS"
  | .jp _ => "JP"
  | .call _ => "CALL"
  | .seImm _ _ => "SE_IMM"
  | .sneImm _ _ => "SNE_IMM"
  | .seReg _ _ _ => "SE_REG"
  | .ldImm _ _ => "LD_IMM"
  | .addImm _ _ => "ADD_IMM"
  | .unimpl8 _ _ _ => "UNIMPL_8"
  | .unimpl9 _ _ _ => "UNIMPL_9"
  | .ldI _ => "LD_I"
  | .unimplB _ => "UNIMPL_B"
  | .unimplC _ _ => "UNIMPL_C"
  | .drw _ _ _ => "DRW"
  | .unimplE _ _ => "UNIMPL_E"
  | .ldVxDt _ => "LD_VX_DT"
  | .ldVxK _ => "LD_VX_K"
  | .ldDtVx _ => "LD_DT_VX"
  | .ldStVx _ => "LD_ST_VX"
  | .addIVx _ => "ADD_I_VX"
  | .ldFVx _ => "LD_F_VX"
  | .ldBVx _ => "LD_B_VX"
  | .ldIVx _ => "LD_I_VX"
  | .ldVxI _ => "LD_VX_I"
  | .fUnknown _ _ => "F_UNKNOWN"

/-- One row of spec/opcode_table.json: a word belongs to it when its bits under `mask` are `value` and it is on neither
`except` list (spec/30_encoding.md R89). -/
structure OpcodeRow where
  name : String
  value : Word
  mask : Word
  exceptWords : List Word
  exceptLow : List Byte
  deriving DecidableEq, Repr

/-- The word matches the row, its `except` lists applied, so that the order of the rows does not matter
(spec/30_encoding.md R89). -/
def rowMatches (w : Word) (r : OpcodeRow) : Bool :=
  decide (w &&& r.mask = r.value) && !r.exceptWords.contains w && !r.exceptLow.contains (nnField w)

/-- The 28 rows of spec/opcode_table.json, in its order (spec/30_encoding.md R89). -/
def opcodeRows : List OpcodeRow :=
  [ ⟨"NOP", 0x0000#16, 0xFFFF#16, [], []⟩, ⟨"CLS", 0x00E0#16, 0xFFFF#16, [], []⟩,
    ⟨"RET", 0x00EE#16, 0xFFFF#16, [], []⟩,
    ⟨"SYS", 0x0000#16, 0xF000#16, [0x0000#16, 0x00E0#16, 0x00EE#16], []⟩,
    ⟨"JP", 0x1000#16, 0xF000#16, [], []⟩, ⟨"CALL", 0x2000#16, 0xF000#16, [], []⟩,
    ⟨"SE_IMM", 0x3000#16, 0xF000#16, [], []⟩, ⟨"SNE_IMM", 0x4000#16, 0xF000#16, [], []⟩,
    ⟨"SE_REG", 0x5000#16, 0xF000#16, [], []⟩, ⟨"LD_IMM", 0x6000#16, 0xF000#16, [], []⟩,
    ⟨"ADD_IMM", 0x7000#16, 0xF000#16, [], []⟩, ⟨"UNIMPL_8", 0x8000#16, 0xF000#16, [], []⟩,
    ⟨"UNIMPL_9", 0x9000#16, 0xF000#16, [], []⟩, ⟨"LD_I", 0xA000#16, 0xF000#16, [], []⟩ ] ++
  [ ⟨"UNIMPL_B", 0xB000#16, 0xF000#16, [], []⟩, ⟨"UNIMPL_C", 0xC000#16, 0xF000#16, [], []⟩,
    ⟨"DRW", 0xD000#16, 0xF000#16, [], []⟩, ⟨"UNIMPL_E", 0xE000#16, 0xF000#16, [], []⟩,
    ⟨"LD_VX_DT", 0xF007#16, 0xF0FF#16, [], []⟩, ⟨"LD_VX_K", 0xF00A#16, 0xF0FF#16, [], []⟩,
    ⟨"LD_DT_VX", 0xF015#16, 0xF0FF#16, [], []⟩, ⟨"LD_ST_VX", 0xF018#16, 0xF0FF#16, [], []⟩,
    ⟨"ADD_I_VX", 0xF01E#16, 0xF0FF#16, [], []⟩, ⟨"LD_F_VX", 0xF029#16, 0xF0FF#16, [], []⟩,
    ⟨"LD_B_VX", 0xF033#16, 0xF0FF#16, [], []⟩, ⟨"LD_I_VX", 0xF055#16, 0xF0FF#16, [], []⟩,
    ⟨"LD_VX_I", 0xF065#16, 0xF0FF#16, [], []⟩, ⟨"F_UNKNOWN", 0xF000#16, 0xF000#16, [], fExcept⟩ ]

/-- The bytes of the table's word `w` of `nbits` bits, as Memory holds them: bits above `nbits` are 0 and the
first byte is bits 15 to 8 (spec/20_memory.md R56). -/
def tableWordBytes (nbits w : Nat) : List Byte :=
  let word : Word := BitVec.ofNat 16 (w % 2 ^ min nbits 16)
  [hiByte word, loByte word]

/-- What the decoder reads from the instruction whose bits are `w`, numbered as spec/opcode_table.json numbers them. An
instruction has 16 bits (spec/30_encoding.md R80): a row of more is none of this machine's. -/
def decodeTableWord (nbits w : Nat) : Option Instr :=
  if nbits ≤ 16 then
    match decode (tableWordBytes nbits w) with
    | .ok (i, _) => some i
    | .error _ => none
  else none

end Sys2Proof
end

