-- ==== Sys2Proof/Config.lean ====
section
/-! DEFINITION. The parameters of spec/00_scope.md R5, each at the value the spec gives as the source's default or, where
the spec leaves it OPEN, at the instance the assumption log names; those a cycle depends on (`MEM_OOB`, `DISP_OOB`, `STACK_DEPTH`)
are gathered in `Params` (Machine/Policy.lean), an argument of `stepUnder`, and `MEM_INIT`, `DISP_INIT` are those of `powerUp`. The spec calls the numeric literals unaudited (U15), so each
is named once, here (notes/assumptions/1.md, UNVERIFIED). -/

namespace Sys2Proof

/-- `MEM_SIZE`: Memory's capacity in bytes; the valid addresses are `0 .. MEM_SIZE-1` (spec/00_scope.md R5). -/
abbrev Config.memSize : Nat := 4096

/-- `DISP_W`: the display's width in pixels (spec/00_scope.md R5). -/
abbrev Config.dispW : Nat := 64

/-- `DISP_H`: the display's height in pixels (spec/00_scope.md R5). -/
abbrev Config.dispH : Nat := 32

/-- `PC_RESET`: the program counter after reset, which is also the address the ROM is loaded at
(spec/00_scope.md R5; spec/70_reset_and_hazards.md R233, R236). -/
abbrev Config.pcReset : Word := 0x200#16

/-- `FONT_BASE`: the address of glyph 0 (spec/00_scope.md R5). -/
abbrev Config.fontBase : Nat := 0x50

/-- `FONT_GLYPH_BYTES`: the bytes of one glyph (spec/00_scope.md R5). -/
abbrev Config.fontGlyphBytes : Nat := 5

/-- `FONT_GLYPHS`: the glyphs of the table (spec/00_scope.md R5). -/
abbrev Config.fontGlyphs : Nat := 16

/-- `I_FLAG_THRESHOLD`: `ADD I, Vx` sets the flag when the new index is at or above this (spec/00_scope.md R5;
spec/43_memory_address.md R162). -/
abbrev Config.indexFlagThreshold : Nat := 0xFFF

/-- `STACK_DEPTH`: the bound on the call stack. The source's design has none (spec/10_state.md R35), so it is `none`
(notes/assumptions/8.md). -/
abbrev Config.stackDepth : Option Nat := none

/-- `MEM_INIT`: what a byte of Memory that nothing has written reads as. DESIGN CHOICE, the recommended instance of
spec/70_reset_and_hazards.md R235; unsafe (notes/assumptions/3.md). -/
abbrev Config.memInit : Byte := 0x00#8

/-- `DISP_INIT`: what a pixel shows at power-up. DESIGN CHOICE, the recommended instance of
spec/70_reset_and_hazards.md R235; unsafe (notes/assumptions/4.md). -/
abbrev Config.dispInit : Bool := false

end Sys2Proof
end

