-- ==== Sys2Proof/Machine/State.lean ====
section
/-! DEFINITION. The state of the machine as plain data, the reasons a step can stop, and the state after reset. -/

namespace Sys2Proof.Machine

/-- Memory: address and byte pairs in one canonical form, addresses strictly rising, below `MEM_SIZE`, and no listed byte
equal to `Config.memInit`, which an unlisted address reads as (spec/10_state.md R36; spec/20_memory.md R50). -/
abbrev Memory := List Host.Cell

/-- The Display buffer: `DISP_H` rows of `DISP_W` pixels, `true` is on; row `y`, then column `x`
(spec/10_state.md R37; spec/20_memory.md R59). -/
abbrev Display := Vector (Vector Bool Config.dispW) Config.dispH

/-- An event on the core's diagnostic output; execution continues after it (spec/60_exceptions.md R200). The content is
the spec's own choice (notes/assumptions/18.md). -/
inductive Diagnostic where
  /-- The word `w` fetched from `pc` is not one of the implemented instructions (spec/60_exceptions.md R201). -/
  | decodeError (w : Word) (pc : Word)
  /-- `RET` at `pc` with an empty call stack (spec/60_exceptions.md R202). -/
  | stackUnderflow (pc : Word)
  deriving DecidableEq, Repr

/-- Why the machine stops. No state is defined after a fault (spec/60_exceptions.md R204; notes/assumptions/24.md). -/
inductive Fault where
  /-- A Memory access at `addr`, outside `0 .. MEM_SIZE-1`, by the instruction at `pc`: raised by the fetch, `LD B`, `LD [I]`,
  `LD Vx, [I]` and `DRW` under `MEM_OOB = FAULT` (spec/20_memory.md R58; spec/60_exceptions.md R204). Safe: another Memory may let
  the access complete (notes/assumptions/6.md). -/
  | memOutOfRange (addr : Nat) (pc : Word)
  /-- A Display access at `(x, y)`, off the grid, by the instruction at `pc`: raised by `DRW` under `DISP_OOB = FAULT`
  (spec/20_memory.md R63; spec/60_exceptions.md R204). Safe: another Display may let the access complete (notes/assumptions/7.md). -/
  | dispOutOfRange (x y : Nat) (pc : Word)
  /-- `CALL` at `pc` with a bounded call stack that is full (spec/60_exceptions.md R205). Safe, and never raised while
  `Config.stackDepth` is `none` (notes/assumptions/8.md). -/
  | stackOverflow (pc : Word)
  deriving DecidableEq, Repr

/-- Why an instruction has no meaning in this model. -/
inductive Refusal where
  /-- Raised by an arm of `exec` whose instruction has no meaning yet; safe. No arm of this model raises it: every word
  has a meaning (spec/30_encoding.md R90, R92). -/
  | notModelled (mnemonic : String)
  deriving DecidableEq, Repr

/-- The state at a cycle boundary (spec/45_cycle.md R191, R192). -/
structure State where
  /-- The general registers `V[0]` to `V[15]`; `V[15]` is `VF` (spec/10_state.md R20, R21). -/
  v : Vector Byte 16
  /-- The index register `I` (spec/10_state.md R31). -/
  i : Word
  /-- The program counter (spec/10_state.md R24). -/
  pc : Word
  /-- The call stack, the most recently pushed value first (spec/10_state.md R34; notes/assumptions/30.md). -/
  stack : List Word
  /-- Memory (spec/10_state.md R36). -/
  mem : Memory
  /-- The Display buffer (spec/10_state.md R37). -/
  display : Display
  /-- The MODEL'S OWN field: the diagnostics reported so far, oldest first. No instruction reads it
  (spec/60_exceptions.md R200; notes/assumptions/19.md). -/
  diags : List Diagnostic
  deriving DecidableEq, Repr

/-- The machine right after reset (spec/10_state.md R40; spec/70_reset_and_hazards.md R230). The spec's source gives a value for
`pc` and an empty stack; the zeros of `V` and `I` are DESIGN CHOICE (notes/assumptions/5.md); nothing is listed in Memory and no
pixel is on, DESIGN CHOICE (notes/assumptions/3.md, 4.md); no diagnostic has been reported. -/
def State.reset : State where
  v := Vector.replicate 16 0x00#8
  i := 0x0000#16
  pc := Config.pcReset
  stack := []
  mem := []
  display := Vector.replicate Config.dispH (Vector.replicate Config.dispW Config.dispInit)
  diags := []

end Sys2Proof.Machine
end

