-- ==== Sys2Proof/Machine/Policy.lean ====
section
/-! DEFINITION. The parameters of spec/00_scope.md R5 that the spec leaves OPEN and a cycle depends on, as one argument of the
machine: what the Memory and the Display do on an access out of range, and the bound on the call stack. `Params.chosen` is the
instance at which `exec` and `step` take them; the cycle under any other is `stepUnder`. -/

namespace Sys2Proof.Machine

/-- A Memory that lets an access out of range complete: what each call of its interface does there, a total function for a read
and a transformer of Memory for a write (spec/20_memory.md R58; notes/assumptions/32.md). A word read is a call of its own (R53). -/
structure MemPolicy where
  /-- `readByte(addr)`. -/
  readByte : Nat → Memory → Byte
  /-- `readWord(addr)`, one of its two bytes out of range. -/
  readWord : Nat → Memory → Word
  /-- `writeByte(addr, value)`. -/
  writeByte : Nat → Byte → Memory → Memory

/-- `MEM_OOB`: what the Memory does on an address outside `0 .. MEM_SIZE-1` (spec/20_memory.md R58; spec/92_eei_decisions.md D5). -/
inductive MemOob where
  /-- The call does not return: the cycle ends in a fault. The spec's recommended instance. -/
  | fault
  /-- The call returns, and the core goes on as if the access had been in range (spec/60_exceptions.md R204). -/
  | answers (policy : MemPolicy)

/-- A Display that lets an access off the grid complete: what each call of its interface does there (spec/20_memory.md R63;
notes/assumptions/32.md). -/
structure DispPolicy where
  /-- `getPixel(x, y)`. -/
  get : Nat → Nat → Display → Bool
  /-- `setPixel(x, y, b)`. -/
  set : Nat → Nat → Bool → Display → Display

/-- `DISP_OOB`: what the Display does on a coordinate off the grid (spec/20_memory.md R63; spec/92_eei_decisions.md D6). -/
inductive DispOob where
  /-- The call does not return: the cycle ends in a fault. The spec's recommended instance. -/
  | fault
  /-- The call returns, and the core goes on as if the access had been on the grid (spec/60_exceptions.md R204). -/
  | answers (policy : DispPolicy)

/-- The OPEN parameters a cycle depends on (spec/00_scope.md R5). `MEM_INIT` and `DISP_INIT` are the arguments of `powerUp`; no rule
depends on `CLOCK_HZ`. -/
structure Params where
  /-- `MEM_OOB`. -/
  memOob : MemOob
  /-- `DISP_OOB`. -/
  dispOob : DispOob
  /-- `STACK_DEPTH`; none is no bound. -/
  stackDepth : Option Nat

/-- The instance the machine takes: both policies `FAULT`, as the spec recommends, and no bound on the stack, as the source has it
(notes/assumptions/6.md, 7.md, 8.md). -/
abbrev Params.chosen : Params := { memOob := .fault, dispOob := .fault, stackDepth := Config.stackDepth }

end Sys2Proof.Machine
end

