-- ==== Sys2Proof/Machine/Ops.lean ====
section
/-! DEFINITION. The named operations over Memory, the Display, the registers, the call stack, the diagnostic output and the
program counter, each once. Every instruction is written over them. This hardware takes no exception
(spec/60_exceptions.md R212): what stands in that place is `report`. -/

namespace Sys2Proof.Machine

/-! One update for each field that an operation below replaces as a whole -/

/-- The state with another Memory. -/
def setMem (m : Memory) (s : State) : State := { s with mem := m }

/-- The state with another Display. -/
def setDisplay (d : Display) (s : State) : State := { s with display := d }

/-- The state with another call stack. -/
def setStack (l : List Word) (s : State) : State := { s with stack := l }

/-! Memory (spec/20_memory.md) -/

/-- The byte Memory holds at an address; an unlisted address reads as `Config.memInit`. -/
def Memory.read : Memory → Nat → Byte
  | [], _ => Config.memInit
  | c :: m, addr => if c.1 = addr then c.2 else Memory.read m addr

/-- The memory with nothing listed at an address. -/
def Memory.erase (m : Memory) (addr : Nat) : Memory := m.filter fun c => decide (c.1 ≠ addr)

/-- The memory with one more listed byte, put before the first listed address above its own. -/
def Memory.insert : Memory → Nat → Byte → Memory
  | [], addr, b => [(addr, b)]
  | c :: m, addr, b => if addr < c.1 then (addr, b) :: c :: m else c :: Memory.insert m addr b

/-- The memory with a byte written; writing what an unlisted address reads as removes the entry. -/
def Memory.write (m : Memory) (addr : Nat) (b : Byte) : Memory :=
  if b = Config.memInit then Memory.erase m addr else Memory.insert (Memory.erase m addr) addr b

/-- The canonical form: addresses strictly rising, each of them an address of Memory, no listed byte equal to what an
unlisted address reads as. -/
abbrev Memory.wf (m : Memory) : Prop :=
  m.Pairwise (fun c d => c.1 < d.1) ∧ ∀ c ∈ m, c.1 < Config.memSize ∧ c.2 ≠ Config.memInit

/-- `MemRead(addr, 1)`, the collaborator's `readByte` (spec/20_memory.md R52); what an address outside Memory does is `MEM_OOB`
(R58). Addresses are natural numbers, never reduced (R57; notes/assumptions/11.md). -/
def readByteUnder (m : MemOob) (addr : Nat) (s : State) : Except Fault Byte :=
  if addr < Config.memSize then .ok (Memory.read s.mem addr)
  else match m with
    | .fault => .error (.memOutOfRange addr s.pc)
    | .answers p => .ok (p.readByte addr s.mem)

/-- `MemRead(addr, 2)`, the collaborator's `readWord`: big-endian (spec/20_memory.md R53). Where one of the bytes is out of range
`MEM_OOB` applies to the call as a whole (R53, R58); its fault names the lower such address (notes/assumptions/28.md). -/
def readWordUnder (m : MemOob) (addr : Nat) (s : State) : Except Fault Word :=
  if addr + 1 < Config.memSize then .ok (joinWord (Memory.read s.mem addr) (Memory.read s.mem (addr + 1)))
  else match m with
    | .fault => .error (.memOutOfRange (max addr Config.memSize) s.pc)
    | .answers p => .ok (p.readWord addr s.mem)

/-- `MemWrite(addr, 1, b)`, the collaborator's `writeByte` (spec/20_memory.md R54); what an address outside Memory does is
`MEM_OOB` (R58). -/
def writeByteUnder (m : MemOob) (addr : Nat) (b : Byte) (s : State) : Except Fault State :=
  if addr < Config.memSize then .ok (setMem (Memory.write s.mem addr b) s)
  else match m with
    | .fault => .error (.memOutOfRange addr s.pc)
    | .answers p => .ok (setMem (p.writeByte addr b s.mem) s)

/-- The fetch of a cycle: the word at `pc`, at any address, even or odd (spec/45_cycle.md R190, R193). -/
def fetchWordUnder (m : MemOob) (s : State) : Except Fault Word := readWordUnder m s.pc.toNat s

/-- `readByteUnder` at the chosen `MEM_OOB`: an address outside Memory faults (notes/assumptions/6.md). -/
def readByte (addr : Nat) (s : State) : Except Fault Byte := readByteUnder Params.chosen.memOob addr s

/-- `readWordUnder` at the chosen `MEM_OOB`. -/
def readWord (addr : Nat) (s : State) : Except Fault Word := readWordUnder Params.chosen.memOob addr s

/-- `writeByteUnder` at the chosen `MEM_OOB`: an address outside Memory faults (notes/assumptions/6.md). -/
def writeByte (addr : Nat) (b : Byte) (s : State) : Except Fault State := writeByteUnder Params.chosen.memOob addr b s

/-- `fetchWordUnder` at the chosen `MEM_OOB`. -/
def fetchWord (s : State) : Except Fault Word := fetchWordUnder Params.chosen.memOob s

/-- Bytes put into Memory from outside the machine, from an address upward; a byte past the end of Memory is dropped. Not an
access of the core's (spec/10_state.md R41: the loaders' image is given). -/
def placeBytes : Nat → List Byte → State → State
  | _, [], s => s
  | addr, b :: bs, s =>
    placeBytes (addr + 1) bs
      (if addr < Config.memSize then setMem (Memory.write s.mem addr b) s else s)

/-! Display (spec/20_memory.md) -/

/-- The pixel at column `x` and row `y` (spec/20_memory.md R59). -/
def Display.get (d : Display) (x : Fin Config.dispW) (y : Fin Config.dispH) : Bool := d[y][x]

/-- The display with one pixel set. -/
def Display.put (d : Display) (x : Fin Config.dispW) (y : Fin Config.dispH) (b : Bool) : Display :=
  d.set y (d[y].set x b)

/-- `DispClear()` (spec/20_memory.md R60). -/
def dispClear (s : State) : State :=
  setDisplay (Vector.replicate Config.dispH (Vector.replicate Config.dispW false)) s

/-- `DispGet(x, y)` (spec/20_memory.md R61); what a coordinate off the grid does is `DISP_OOB` (R63). -/
def dispGetUnder (d : DispOob) (x y : Nat) (s : State) : Except Fault Bool :=
  if h : x < Config.dispW ∧ y < Config.dispH then .ok (Display.get s.display ⟨x, h.1⟩ ⟨y, h.2⟩)
  else match d with
    | .fault => .error (.dispOutOfRange x y s.pc)
    | .answers p => .ok (p.get x y s.display)

/-- `DispSet(x, y, b)` (spec/20_memory.md R62); what a coordinate off the grid does is `DISP_OOB` (R63). -/
def dispSetUnder (d : DispOob) (x y : Nat) (b : Bool) (s : State) : Except Fault State :=
  if h : x < Config.dispW ∧ y < Config.dispH then
    .ok (setDisplay (Display.put s.display ⟨x, h.1⟩ ⟨y, h.2⟩ b) s)
  else match d with
    | .fault => .error (.dispOutOfRange x y s.pc)
    | .answers p => .ok (setDisplay (p.set x y b s.display) s)

/-- `dispGetUnder` at the chosen `DISP_OOB`: a coordinate off the grid faults (notes/assumptions/7.md). -/
def dispGet (x y : Nat) (s : State) : Except Fault Bool := dispGetUnder Params.chosen.dispOob x y s

/-- `dispSetUnder` at the chosen `DISP_OOB`: a coordinate off the grid faults (notes/assumptions/7.md). -/
def dispSet (x y : Nat) (b : Bool) (s : State) : Except Fault State := dispSetUnder Params.chosen.dispOob x y b s

/-! Registers (spec/10_state.md) -/

/-- Read `V[r]` (spec/10_state.md R20; no register is special in storage, R21). -/
def getV (r : RegIdx) (s : State) : Byte := s.v[r]

/-- Write `V[r]` (spec/10_state.md R20, R22). -/
def setV (r : RegIdx) (b : Byte) (s : State) : State := { s with v := s.v.set r b }

/-- Write the index register (spec/10_state.md R31). -/
def setI (a : Word) (s : State) : State := { s with i := a }

/-! Call stack (spec/10_state.md) -/

/-- `stack.push(a)` on a stack with an optional bound: without one it never fails (spec/10_state.md R35), with one a push on a
full stack faults (spec/60_exceptions.md R205). -/
def pushStack (bound : Option Nat) (a : Word) (s : State) : Except Fault State :=
  match bound with
  | none => .ok (setStack (a :: s.stack) s)
  | some depth =>
    if s.stack.length < depth then .ok (setStack (a :: s.stack) s)
    else .error (.stackOverflow s.pc)

/-- `stack.pop()`: the most recently pushed value and the state without it, or none on an empty stack
(spec/10_state.md R34). -/
def popStack (s : State) : Option (Word × State) :=
  match s.stack with
  | [] => none
  | a :: rest => some (a, setStack rest s)

/-! Diagnostics (spec/60_exceptions.md) -/

/-- `report`: an event on the diagnostic output; nothing else changes, and the flow of control does not
(spec/60_exceptions.md R200, R212). -/
def report (d : Diagnostic) (s : State) : State := { s with diags := s.diags ++ [d] }

/-- The code of a diagnostic (spec/60_exceptions.md R203; DESIGN CHOICE of the spec, notes/assumptions/18.md). -/
def diagnosticCode : Diagnostic → Nat
  | .decodeError _ _ => 1
  | .stackUnderflow _ => 2

/-- The code of a fault (spec/60_exceptions.md R203; DESIGN CHOICE of the spec, notes/assumptions/18.md). -/
def faultCode : Fault → Nat
  | .memOutOfRange _ _ => 3
  | .dispOutOfRange _ _ _ => 3
  | .stackOverflow _ => 4

/-! Program counter (spec/45_cycle.md R190: `next_pc`, folded into the operation that commits it) -/

/-- Commit the default `next_pc`, `(pc + 2) mod 65536` (spec/45_cycle.md R190; the wrap: notes/assumptions/9.md). -/
def advance (s : State) : State := { s with pc := s.pc + 2#16 }

/-- Commit a `next_pc` the handler has assigned (spec/45_cycle.md R190). -/
def jumpTo (target : Word) (s : State) : State := { s with pc := target }

/-- A skip: on a true comparison `next_pc` is two more than its default (spec/41_flow_control.md R133). -/
def skipIf (c : Bool) (s : State) : State :=
  if c then { s with pc := s.pc + 2#16 + 2#16 } else advance s

/-! Outcomes -/

/-- The outcome of a handler: a state or the fault of an access out of range (spec/45_cycle.md R192). -/
def toOutcome : Except Fault State → Host.Outcome State Fault Refusal
  | .ok s => .next s
  | .error f => .fault f

/-- The outcome of a handler that leaves `next_pc` at its default: commit it, unless an access has faulted
(spec/45_cycle.md R190, R192). -/
def finish (r : Except Fault State) : Host.Outcome State Fault Refusal := toOutcome (r.map advance)

/-- `DiagNop(w)`: report the word and its address, change nothing else, go on at `pc + 2`
(spec/40_decode_dispatch.md R111). -/
def diagNop (w : Word) (s : State) : Host.Outcome State Fault Refusal :=
  .next (advance (report (.decodeError w s.pc) s))

end Sys2Proof.Machine
end

