-- ==== Sys2Proof/Machine/Flags.lean ====
section
/-! DEFINITION. The one status flag, `VF`, and its two computations (spec/10_state.md R28). -/

namespace Sys2Proof.Machine

/-- `VF`, the flag register: register 15 (spec/10_state.md R21). -/
abbrev flagReg : RegIdx := 15

/-- Write `VF` as a flag (spec/10_state.md R28). -/
def setFlag (b : Byte) (s : State) : State := setV flagReg b s

/-- The flag of `ADD I, Vx`, tested on the new index (spec/43_memory_address.md R162; `>=`, not `>`: spec/90_conflicts.md C11). -/
def indexFlag (newI : Word) : Byte := if Config.indexFlagThreshold ≤ newI.toNat then 1#8 else 0#8

/-- The flag of `DRW` after one flip: set where the pixel was on, else left as it was, so that it is never set back to 0
(spec/44_display.md R182). -/
def noteCollision (old : Bool) (s : State) : State := if old then setFlag 1#8 s else s

end Sys2Proof.Machine
end

