-- ==== Sys2Proof/Machine/Operands.lean ====
section
/-! DEFINITION. What the instructions compute from their operands (spec/30_encoding.md R83; spec/42_register_constant.md R152):
immediates, digits, glyph and sprite addresses, sprite bits, register ranges. -/

namespace Sys2Proof.Machine

/-- `zext_16(NNN)` (spec/30_encoding.md R83). -/
def zext16 (nnn : Addr12) : Word := nnn.setWidth 16

/-- An effective address: `I` plus a constant, a natural number that is not reduced
(spec/20_memory.md R57; spec/43_memory_address.md R161; notes/assumptions/11.md). -/
def indexAddr (s : State) (offset : Nat) : Nat := s.i.toNat + offset

/-- `I + V[X]` as `ADD I, Vx` stores it, reduced modulo `2^16` (spec/43_memory_address.md R162; notes/assumptions/10.md). -/
def indexSum (i : Word) (b : Byte) : Word := i + b.setWidth 16

/-- The address of the glyph of a value, `0x50 + value * 5`, without masking
(spec/43_memory_address.md R163; a value above 15: notes/assumptions/12.md). -/
def glyphAddr (b : Byte) : Word := BitVec.ofNat 16 (Config.fontBase + b.toNat * Config.fontGlyphBytes)

/-- The hundreds digit (spec/43_memory_address.md R164). -/
def hundreds (b : Byte) : Byte := BitVec.ofNat 8 (b.toNat / 100)

/-- The tens digit (spec/43_memory_address.md R164). -/
def tens (b : Byte) : Byte := BitVec.ofNat 8 (b.toNat / 10 % 10)

/-- The ones digit (spec/43_memory_address.md R164). -/
def ones (b : Byte) : Byte := BitVec.ofNat 8 (b.toNat % 10)

/-- The registers `0, 1, .., X`, in that order (spec/43_memory_address.md R165, R166). -/
def regsUpTo (x : RegIdx) : List RegIdx := (List.range (x.val + 1)).map (Fin.ofNat 16)

/-- Column `c` of a sprite's row byte: bit `7 - c`, the most significant bit is the leftmost pixel
(spec/44_display.md R181). -/
def spriteBit (b : Byte) (c : Nat) : Bool := b.getLsbD (7 - c)

end Sys2Proof.Machine
end

