-- ==== Sys2Proof/Machine/DisplayDraw.lean ====
section
/-! DEFINITION. The display instructions (spec/44_display.md). -/

namespace Sys2Proof.Machine

/-- `CLS` (R180). -/
def execCls (s : State) : Host.Outcome State Fault Refusal := .next (advance (dispClear s))

/-- One bit of a sprite's row byte `b`: where it is set, flip the pixel `(px + c, py + r)` and note a collision; where
it is clear, the Display is not touched. Coordinates are natural numbers, not reduced (R182). -/
def drawBit (d : DispOob) (px py r : Nat) (b : Byte) (s : State) (c : Nat) : Except Fault State :=
  if spriteBit b c then do
    let old ← dispGetUnder d (px + c) (py + r) s
    let s₁ ← dispSetUnder d (px + c) (py + r) (!old) s
    return noteCollision old s₁
  else .ok s

/-- One row of a sprite: read its byte at `I + r`, then its eight bits from left to right (R182). -/
def drawRow (p : Params) (px py : Nat) (s : State) (r : Nat) : Except Fault State := do
  let b ← readByteUnder p.memOob (indexAddr s r) s
  (List.range 8).foldlM (drawBit p.dispOob px py r b) s

/-- A sprite of `n` rows with its top left corner at `(px, py)`: `VF` is reset, then the rows from top to bottom
(R182). -/
def drawSprite (p : Params) (px py n : Nat) (s : State) : Except Fault State :=
  (List.range n).foldlM (drawRow p px py) (setFlag 0#8 s)

/-- `DRW Vx, Vy, N`: the position is read once, before `VF` is reset (R182; notes/assumptions/13.md). -/
def execDrwUnder (p : Params) (x y : RegIdx) (n : Nibble) (s : State) : Host.Outcome State Fault Refusal :=
  finish (drawSprite p (getV x s).toNat (getV y s).toNat n.toNat s)

/-- `DRW Vx, Vy, N` at the chosen parameters. -/
def execDrw (x y : RegIdx) (n : Nibble) (s : State) : Host.Outcome State Fault Refusal :=
  execDrwUnder Params.chosen x y n s

end Sys2Proof.Machine
end

