-- ==== Sys2Proof/Machine/FlowControl.lean ====
section
/-! DEFINITION. The flow-control instructions (spec/41_flow_control.md). -/

namespace Sys2Proof.Machine

/-- `JP NNN` (R130). -/
def execJp (nnn : Addr12) (s : State) : Host.Outcome State Fault Refusal := .next (jumpTo (zext16 nnn) s)

/-- `CALL NNN`: push the address of this `CALL`, then jump (R131); on a full bounded stack, fault (spec/60_exceptions.md R205). -/
def execCallUnder (p : Params) (nnn : Addr12) (s : State) : Host.Outcome State Fault Refusal :=
  toOutcome ((pushStack p.stackDepth s.pc s).map (jumpTo (zext16 nnn)))

/-- `CALL NNN` at the chosen parameters: the stack has no bound (notes/assumptions/8.md). -/
def execCall (nnn : Addr12) (s : State) : Host.Outcome State Fault Refusal := execCallUnder Params.chosen nnn s

/-- `RET`: resume two bytes after the popped address; on an empty stack report and go on at `pc + 2` (R132). -/
def execRet (s : State) : Host.Outcome State Fault Refusal :=
  match popStack s with
  | none => .next (advance (report (.stackUnderflow s.pc) s))
  | some (a, s') => .next (jumpTo (a + 2#16) s')

/-- `SE Vx, NN` (R133). -/
def execSeImm (x : RegIdx) (nn : Byte) (s : State) : Host.Outcome State Fault Refusal :=
  .next (skipIf (getV x s == nn) s)

/-- `SNE Vx, NN` (R134). -/
def execSneImm (x : RegIdx) (nn : Byte) (s : State) : Host.Outcome State Fault Refusal :=
  .next (skipIf (getV x s != nn) s)

/-- `SE Vx, Vy`; the low nibble is ignored (R135, spec/30_encoding.md R91; notes/assumptions/16.md). -/
def execSeReg (x y : RegIdx) (_n : Nibble) (s : State) : Host.Outcome State Fault Refusal :=
  .next (skipIf (getV x s == getV y s) s)

end Sys2Proof.Machine
end

