-- ==== Sys2Proof/Machine/MemoryAddress.lean ====
section
/-! DEFINITION. The memory-address instructions (spec/43_memory_address.md). -/

namespace Sys2Proof.Machine

/-- `LD I, NNN` (R160). -/
def execLdI (nnn : Addr12) (s : State) : Host.Outcome State Fault Refusal :=
  .next (advance (setI (zext16 nnn) s))

/-- `ADD I, Vx`: the operand is read before `VF` is written, and the flag is tested on the new `I`
(R162; notes/assumptions/10.md, 13.md). -/
def execAddIVx (x : RegIdx) (s : State) : Host.Outcome State Fault Refusal :=
  let newI := indexSum s.i (getV x s)
  .next (advance (setFlag (indexFlag newI) (setI newI s)))

/-- `LD F, Vx`: an address only, no memory access (R163; notes/assumptions/12.md). -/
def execLdFVx (x : RegIdx) (s : State) : Host.Outcome State Fault Refusal :=
  .next (advance (setI (glyphAddr (getV x s)) s))

/-- `MemWrite(I + 0, 1, ..)`, `MemWrite(I + 1, 1, ..)`, `MemWrite(I + 2, 1, ..)` of the three digits of a value
(R164; the order: spec/20_memory.md R67, notes/assumptions/21.md). -/
def storeDigits (m : MemOob) (t : Byte) (s : State) : Except Fault State := do
  let s₁ ← writeByteUnder m (indexAddr s 0) (hundreds t) s
  let s₂ ← writeByteUnder m (indexAddr s 1) (tens t) s₁
  writeByteUnder m (indexAddr s 2) (ones t) s₂

/-- `LD B, Vx`: `I` is unchanged (R164). -/
def execLdBVxUnder (p : Params) (x : RegIdx) (s : State) : Host.Outcome State Fault Refusal :=
  finish (storeDigits p.memOob (getV x s) s)

/-- `LD B, Vx` at the chosen parameters. -/
def execLdBVx (x : RegIdx) (s : State) : Host.Outcome State Fault Refusal := execLdBVxUnder Params.chosen x s

/-- One step of the dump: `MemWrite(I, 1, V[r])`, then `I` is incremented (R165). -/
def dumpReg (m : MemOob) (s : State) (r : RegIdx) : Except Fault State := do
  let s₁ ← writeByteUnder m (indexAddr s 0) (getV r s) s
  return setI (s.i + 1#16) s₁

/-- `LD [I], Vx` (R165). -/
def execLdIVxUnder (p : Params) (x : RegIdx) (s : State) : Host.Outcome State Fault Refusal :=
  finish ((regsUpTo x).foldlM (dumpReg p.memOob) s)

/-- `LD [I], Vx` at the chosen parameters. -/
def execLdIVx (x : RegIdx) (s : State) : Host.Outcome State Fault Refusal := execLdIVxUnder Params.chosen x s

/-- One step of the restore: `V[r] <- MemRead(I, 1)`, then `I` is incremented (R166). -/
def restoreReg (m : MemOob) (s : State) (r : RegIdx) : Except Fault State := do
  let b ← readByteUnder m (indexAddr s 0) s
  return setI (s.i + 1#16) (setV r b s)

/-- `LD Vx, [I]` (R166). -/
def execLdVxIUnder (p : Params) (x : RegIdx) (s : State) : Host.Outcome State Fault Refusal :=
  finish ((regsUpTo x).foldlM (restoreReg p.memOob) s)

/-- `LD Vx, [I]` at the chosen parameters. -/
def execLdVxI (x : RegIdx) (s : State) : Host.Outcome State Fault Refusal := execLdVxIUnder Params.chosen x s

end Sys2Proof.Machine
end

