-- ==== Sys2Proof/Machine/NoOps.lean ====
section
/-! DEFINITION. The instructions of spec/40_decode_dispatch.md: the explicit no-op and the diagnostic no-ops. A diagnostic
no-op reports the word it was decoded from, which is the encoding of the instruction (spec/60_exceptions.md R201). -/

namespace Sys2Proof.Machine

/-- `NOP`: nothing, and no diagnostic (R112; notes/assumptions/17.md). -/
def execNop (s : State) : Host.Outcome State Fault Refusal := .next (advance s)

/-- `SYS NNN`, unsupported operation of group `0x0` (R113). -/
def execSys (nnn : Addr12) (s : State) : Host.Outcome State Fault Refusal := diagNop (encode (.sys nnn)) s

/-- `8XYN`, unimplemented; `VF` is not written (R114). -/
def execUnimpl8 (x y : RegIdx) (n : Nibble) (s : State) : Host.Outcome State Fault Refusal :=
  diagNop (encode (.unimpl8 x y n)) s

/-- `9XYN`, unimplemented; it never skips (R115). -/
def execUnimpl9 (x y : RegIdx) (n : Nibble) (s : State) : Host.Outcome State Fault Refusal :=
  diagNop (encode (.unimpl9 x y n)) s

/-- `BNNN`, unimplemented; it never jumps (R116). -/
def execUnimplB (nnn : Addr12) (s : State) : Host.Outcome State Fault Refusal := diagNop (encode (.unimplB nnn)) s

/-- `CXNN`, unimplemented; `V[X]` is unchanged (R117). -/
def execUnimplC (x : RegIdx) (nn : Byte) (s : State) : Host.Outcome State Fault Refusal :=
  diagNop (encode (.unimplC x nn)) s

/-- `EXNN`, unimplemented; it never skips (R118). -/
def execUnimplE (x : RegIdx) (nn : Byte) (s : State) : Host.Outcome State Fault Refusal :=
  diagNop (encode (.unimplE x nn)) s

/-- `LD Vx, DT`, out of scope; `V[X]` is not written (R119; notes/assumptions/14.md). -/
def execLdVxDt (x : RegIdx) (s : State) : Host.Outcome State Fault Refusal := diagNop (encode (.ldVxDt x)) s

/-- `LD Vx, K`, out of scope; it does not block (R120; notes/assumptions/14.md). -/
def execLdVxK (x : RegIdx) (s : State) : Host.Outcome State Fault Refusal := diagNop (encode (.ldVxK x)) s

/-- `LD DT, Vx`, out of scope; there is no delay timer (R121; notes/assumptions/14.md). -/
def execLdDtVx (x : RegIdx) (s : State) : Host.Outcome State Fault Refusal := diagNop (encode (.ldDtVx x)) s

/-- `LD ST, Vx`, out of scope; there is no sound timer (R122; notes/assumptions/14.md). -/
def execLdStVx (x : RegIdx) (s : State) : Host.Outcome State Fault Refusal := diagNop (encode (.ldStVx x)) s

/-- `FXNN` with an unrecognised low byte (R123; notes/assumptions/15.md). -/
def execFUnknown (x : RegIdx) (nn : Byte) (s : State) : Host.Outcome State Fault Refusal :=
  diagNop (encode (.fUnknown x nn)) s

end Sys2Proof.Machine
end

