-- ==== Sys2Proof/Machine/RegisterConstant.lean ====
section
/-! DEFINITION. The register and constant instructions (spec/42_register_constant.md). -/

namespace Sys2Proof.Machine

/-- `LD Vx, NN` (R150). -/
def execLdImm (x : RegIdx) (nn : Byte) (s : State) : Host.Outcome State Fault Refusal :=
  .next (advance (setV x nn s))

/-- `ADD Vx, NN`: modulo 256, no flag (R151). -/
def execAddImm (x : RegIdx) (nn : Byte) (s : State) : Host.Outcome State Fault Refusal :=
  .next (advance (setV x (getV x s + nn) s))

end Sys2Proof.Machine
end

