-- ==== Sys2Proof/Machine/Dispatch.lean ====
section
/-! DEFINITION. One arm for each constructor of Instr, each a call of the instruction's meaning
(spec/40_decode_dispatch.md R110). -/

namespace Sys2Proof.Machine

def exec (i : Instr) (s : State) : Host.Outcome State Fault Refusal :=
  match i with
  | .nop => Sys2Proof.Machine.execNop s
  | .cls => Sys2Proof.Machine.execCls s
  | .ret => Sys2Proof.Machine.execRet s
  | .sys nnn => Sys2Proof.Machine.execSys nnn s
  | .jp nnn => Sys2Proof.Machine.execJp nnn s
  | .call nnn => Sys2Proof.Machine.execCall nnn s
  | .seImm x nn => Sys2Proof.Machine.execSeImm x nn s
  | .sneImm x nn => Sys2Proof.Machine.execSneImm x nn s
  | .seReg x y n => Sys2Proof.Machine.execSeReg x y n s
  | .ldImm x nn => Sys2Proof.Machine.execLdImm x nn s
  | .addImm x nn => Sys2Proof.Machine.execAddImm x nn s
  | .unimpl8 x y n => Sys2Proof.Machine.execUnimpl8 x y n s
  | .unimpl9 x y n => Sys2Proof.Machine.execUnimpl9 x y n s
  | .ldI nnn => Sys2Proof.Machine.execLdI nnn s
  | .unimplB nnn => Sys2Proof.Machine.execUnimplB nnn s
  | .unimplC x nn => Sys2Proof.Machine.execUnimplC x nn s
  | .drw x y n => Sys2Proof.Machine.execDrw x y n s
  | .unimplE x nn => Sys2Proof.Machine.execUnimplE x nn s
  | .ldVxDt x => Sys2Proof.Machine.execLdVxDt x s
  | .ldVxK x => Sys2Proof.Machine.execLdVxK x s
  | .ldDtVx x => Sys2Proof.Machine.execLdDtVx x s
  | .ldStVx x => Sys2Proof.Machine.execLdStVx x s
  | .addIVx x => Sys2Proof.Machine.execAddIVx x s
  | .ldFVx x => Sys2Proof.Machine.execLdFVx x s
  | .ldBVx x => Sys2Proof.Machine.execLdBVx x s
  | .ldIVx x => Sys2Proof.Machine.execLdIVx x s
  | .ldVxI x => Sys2Proof.Machine.execLdVxI x s
  | .fUnknown x nn => Sys2Proof.Machine.execFUnknown x nn s

end Sys2Proof.Machine
end

