-- ==== Sys2Proof/Machine/Step.lean ====
section
/-! DEFINITION. The cycle (spec/45_cycle.md), the one step of the machine, at the chosen parameters; under any others it is
`stepUnder` (Machine/Under.lean). -/

namespace Sys2Proof.Machine

/-- One cycle: fetch the word at `pc`, decode it, run its handler, which commits `next_pc` (spec/45_cycle.md R190). A fetch out of
range faults before decode and no handler runs (R193). -/
def step (s : State) : Host.Outcome State Fault Refusal :=
  match fetchWord s with
  | .ok w => exec (decodeWord w) s
  | .error f => .fault f

/-- The state with the table's word `w` placed where the next step fetches it, and nothing else changed. It stands for the
ROM loader's work (spec/70_reset_and_hazards.md R236; notes/assumptions/25.md). -/
def State.withFetchWord (s : State) (nbits w : Nat) : State :=
  placeBytes s.pc.toNat (tableWordBytes nbits w) s

end Sys2Proof.Machine
end

