-- ==== Sys2Proof/Machine/Boot.lean ====
section
/-! DEFINITION. What happens to the machine from outside, between cycles: the engine's reset operation and the two loaders
(spec/70_reset_and_hazards.md). No step runs any of it. -/

namespace Sys2Proof.Machine

/-- The engine's reset operation: Memory, the Display and the diagnostics already put out stay as they are
(R230, R231; the zeros of `V` and `I`: notes/assumptions/5.md). -/
def resetEngine (s : State) : State :=
  { s with pc := Config.pcReset, stack := [], v := Vector.replicate 16 0x00#8, i := 0x0000#16 }

/-- The hub's Memory and Display at power-up, before anything is loaded, with `MEM_INIT` and `DISP_INIT` as its arguments; the core as
after reset (R235, R238). `State.reset` is this at the spec's recommended instances (notes/assumptions/3.md, 4.md). -/
def powerUp (memInit : Nat → Byte) (dispInit : Nat → Nat → Bool) : State :=
  setDisplay (Vector.ofFn fun y => Vector.ofFn fun x => dispInit x.val y.val)
    (placeBytes 0 ((List.range Config.memSize).map memInit) State.reset)

/-- A loader's writes: the bytes of an image from an address upward, each through the Memory collaborator
(R236, R237; an image that does not fit faults: notes/assumptions/27.md). -/
def loadBytes : Nat → List Byte → State → Except Fault State
  | _, [], s => .ok s
  | addr, b :: bs, s => do
    let s₁ ← writeByte addr b s
    loadBytes (addr + 1) bs s₁

/-- The ROM loader: byte `k` of the image goes to `0x200 + k` (R236). -/
def loadRom (image : List Byte) (s : State) : Except Fault State := loadBytes Config.pcReset.toNat image s

/-- The standard CHIP-8 font, sixteen glyphs of five bytes. PRESUMED: general knowledge, GK2 of spec/93_implementation_defined.md
(notes/assumptions/26.md); no instruction depends on it. -/
def fontTable : List Byte :=
  [0xF0#8, 0x90#8, 0x90#8, 0x90#8, 0xF0#8] ++ [0x20#8, 0x60#8, 0x20#8, 0x20#8, 0x70#8] ++
  [0xF0#8, 0x10#8, 0xF0#8, 0x80#8, 0xF0#8] ++ [0xF0#8, 0x10#8, 0xF0#8, 0x10#8, 0xF0#8] ++
  [0x90#8, 0x90#8, 0xF0#8, 0x10#8, 0x10#8] ++ [0xF0#8, 0x80#8, 0xF0#8, 0x10#8, 0xF0#8] ++
  [0xF0#8, 0x80#8, 0xF0#8, 0x90#8, 0xF0#8] ++ [0xF0#8, 0x10#8, 0x20#8, 0x40#8, 0x40#8] ++
  [0xF0#8, 0x90#8, 0xF0#8, 0x90#8, 0xF0#8] ++ [0xF0#8, 0x90#8, 0xF0#8, 0x10#8, 0xF0#8] ++
  [0xF0#8, 0x90#8, 0xF0#8, 0x90#8, 0x90#8] ++ [0xE0#8, 0x90#8, 0xE0#8, 0x90#8, 0xE0#8] ++
  [0xF0#8, 0x80#8, 0x80#8, 0x80#8, 0xF0#8] ++ [0xE0#8, 0x90#8, 0x90#8, 0x90#8, 0xE0#8] ++
  [0xF0#8, 0x80#8, 0xF0#8, 0x80#8, 0xF0#8] ++ [0xF0#8, 0x80#8, 0xF0#8, 0x80#8, 0x80#8]

/-- The font loader: the table goes to `0x50 .. 0x9F` (R237). -/
def loadFont (s : State) : Except Fault State := loadBytes Config.fontBase fontTable s

/-- The boot order: font, ROM, reset (R238). -/
def boot (image : List Byte) (s : State) : Except Fault State := do
  let s₁ ← loadFont s
  let s₂ ← loadRom image s₁
  return resetEngine s₂

end Sys2Proof.Machine
end

