-- ==== Sys2Proof/Machine/Under.lean ====
section
/-! DEFINITION. The machine with the spec's OPEN parameters as its argument (spec/00_scope.md R5). `exec` and `step` are these at
`Params.chosen`; Laws/Under.lean proves it. -/

namespace Sys2Proof.Machine

/-- The meaning of an instruction under given parameters: five instructions access Memory, the Display or the stack's bound
(spec/60_exceptions.md R204, R205), the others depend on no parameter. -/
def execUnder (p : Params) (i : Instr) (s : State) : Host.Outcome State Fault Refusal :=
  match i with
  | .call nnn => execCallUnder p nnn s
  | .drw x y n => execDrwUnder p x y n s
  | .ldBVx x => execLdBVxUnder p x s
  | .ldIVx x => execLdIVxUnder p x s
  | .ldVxI x => execLdVxIUnder p x s
  | .nop | .cls | .ret | .sys _ | .jp _ | .seImm _ _ | .sneImm _ _ | .seReg _ _ _ | .ldImm _ _ | .addImm _ _
  | .unimpl8 _ _ _ | .unimpl9 _ _ _ | .ldI _ | .unimplB _ | .unimplC _ _ | .unimplE _ _ | .ldVxDt _ | .ldVxK _
  | .ldDtVx _ | .ldStVx _ | .addIVx _ | .ldFVx _ | .fUnknown _ _ => exec i s

/-- One cycle under given parameters (spec/45_cycle.md R190, R192, R193; spec/60_exceptions.md R204). -/
def stepUnder (p : Params) (s : State) : Host.Outcome State Fault Refusal :=
  match fetchWordUnder p.memOob s with
  | .ok w => execUnder p (decodeWord w) s
  | .error f => .fault f

end Sys2Proof.Machine
end

