-- ==== Sys2Proof/Safety.lean ====
section
/-! DEFINITION. The terms in which claims are stated: the invariant of the machine, what two states have in common, when a
sprite fits, which instruction reads and writes which register. -/

namespace Sys2Proof.Machine

/-- The machine's invariant: Memory is in its canonical form. -/
abbrev State.Inv (s : State) : Prop := Memory.wf s.mem

/-- The outcome is a next state with a property. -/
def Completes (o : Host.Outcome State Fault Refusal) (P : State → Prop) : Prop := ∃ t, o = .next t ∧ P t

/-- Every byte of Memory reads the same. -/
def SameMemory (s t : State) : Prop := ∀ a, Memory.read t.mem a = Memory.read s.mem a

/-- Every byte of Memory outside the `n` bytes from `a` upward reads the same. -/
def SameMemoryOutside (a n : Nat) (s t : State) : Prop :=
  ∀ b, ¬(a ≤ b ∧ b < a + n) → Memory.read t.mem b = Memory.read s.mem b

/-- Every general register reads the same. -/
def SameRegisters (s t : State) : Prop := ∀ r, getV r t = getV r s

/-- Every general register but one reads the same. -/
def SameRegistersBut (x : RegIdx) (s t : State) : Prop := ∀ r, r ≠ x → getV r t = getV r s

/-- The program counter has gone on by `k`, said for the program counters at which `pc + k` is still a 16-bit number. The wrap
above them is the spec's own choice (notes/assumptions/9.md) and is stated apart. -/
def PcGoesOnBy (k : Nat) (s t : State) : Prop := s.pc.toNat + k < 65536 → t.pc.toNat = s.pc.toNat + k

/-- The fault is of an access that is in fact out of range, made by the instruction at `pc` (spec/60_exceptions.md R204). -/
def OutOfRangeFault (pc : Word) (f : Fault) : Prop :=
  (∃ a, f = .memOutOfRange a pc ∧ Config.memSize ≤ a) ∨
  (∃ x y, f = .dispOutOfRange x y pc ∧ (Config.dispW ≤ x ∨ Config.dispH ≤ y))

/-- Row byte `r` of the sprite at `I` (spec/44_display.md R181: row r is the byte at `I + r`). -/
def spriteRow (s : State) (r : Nat) : Byte := Memory.read s.mem (indexAddr s r)

/-- Every access of drawing `n` rows with the corner at `(px, py)` is in range: each row's byte is in Memory, and each set bit
lands on the grid (spec/44_display.md R182). -/
abbrev SpriteFits (s : State) (px py n : Nat) : Prop :=
  ∀ r, r < n → indexAddr s r < Config.memSize ∧
    ∀ c, c < 8 → spriteBit (spriteRow s r) c = true → px + c < Config.dispW ∧ py + r < Config.dispH

/-- The sprite of `n` rows with its corner at `(px, py)` has a set bit on the pixel `(x, y)` (spec/44_display.md R181, R182). -/
def spriteCovers (s : State) (px py n x y : Nat) : Bool :=
  decide (px ≤ x ∧ x < px + 8 ∧ py ≤ y ∧ y < py + n) && spriteBit (spriteRow s (y - py)) (x - px)

/-- Drawing the sprite erases a pixel: one of its set bits is on a pixel that is on (spec/44_display.md R182). -/
def SpriteCollides (s : State) (px py n : Nat) : Prop :=
  ∃ (x : Fin Config.dispW) (y : Fin Config.dispH),
    spriteCovers s px py n x.val y.val = true ∧ Display.get s.display x y = true

/-- The instruction reads the general register (the table of spec/10_state.md R23, column Reads). -/
def readsReg (i : Instr) (r : RegIdx) : Bool :=
  match i with
  | .seImm x _ | .sneImm x _ | .addImm x _ => r == x
  | .seReg x y _ | .drw x y _ => r == x || r == y
  | .addIVx x | .ldFVx x | .ldBVx x => r == x
  | .ldIVx x => decide (r ≤ x)
  | .nop | .cls | .ret | .sys _ | .jp _ | .call _ | .ldImm _ _ | .unimpl8 _ _ _ | .unimpl9 _ _ _ => false
  | .ldI _ | .unimplB _ | .unimplC _ _ | .unimplE _ _ | .ldVxDt _ | .ldVxK _ | .ldDtVx _ | .ldStVx _ => false
  | .ldVxI _ | .fUnknown _ _ => false

/-- The instruction writes the general register (the table of spec/10_state.md R23, column Writes). -/
def writesReg (i : Instr) (r : RegIdx) : Bool :=
  match i with
  | .ldImm x _ | .addImm x _ => r == x
  | .drw _ _ _ | .addIVx _ => r == flagReg
  | .ldVxI x => decide (r ≤ x)
  | .nop | .cls | .ret | .sys _ | .jp _ | .call _ | .seImm _ _ | .sneImm _ _ | .seReg _ _ _ => false
  | .unimpl8 _ _ _ | .unimpl9 _ _ _ | .ldI _ | .unimplB _ | .unimplC _ _ | .unimplE _ _ => false
  | .ldVxDt _ | .ldVxK _ | .ldDtVx _ | .ldStVx _ | .ldFVx _ | .ldBVx _ | .ldIVx _ | .fUnknown _ _ => false

/-- The instruction writes the index register (the table of spec/10_state.md R32, column Writes `I`). -/
def writesIndex : Instr → Bool
  | .ldI _ | .addIVx _ | .ldFVx _ | .ldIVx _ | .ldVxI _ => true
  | .nop | .cls | .ret | .sys _ | .jp _ | .call _ | .seImm _ _ | .sneImm _ _ | .seReg _ _ _ => false
  | .ldImm _ _ | .addImm _ _ | .unimpl8 _ _ _ | .unimpl9 _ _ _ | .unimplB _ | .unimplC _ _ | .drw _ _ _ => false
  | .unimplE _ _ | .ldVxDt _ | .ldVxK _ | .ldDtVx _ | .ldStVx _ | .ldBVx _ | .fUnknown _ _ => false

/-- The instruction is executed as a diagnostic no-op (the classes of spec/30_encoding.md R92). -/
def isDiagNop : Instr → Bool
  | .sys _ | .unimpl8 _ _ _ | .unimpl9 _ _ _ | .unimplB _ | .unimplC _ _ | .unimplE _ _ => true
  | .ldVxDt _ | .ldVxK _ | .ldDtVx _ | .ldStVx _ | .fUnknown _ _ => true
  | .nop | .cls | .ret | .jp _ | .call _ | .seImm _ _ | .sneImm _ _ | .seReg _ _ _ | .ldImm _ _ => false
  | .addImm _ _ | .ldI _ | .drw _ _ _ | .addIVx _ | .ldFVx _ | .ldBVx _ | .ldIVx _ | .ldVxI _ => false

/-- The skip's comparison is true (spec/41_flow_control.md R133 to R135); false for an instruction that is no skip. -/
def skips (i : Instr) (s : State) : Bool :=
  match i with
  | .seImm x nn => getV x s == nn
  | .sneImm x nn => getV x s != nn
  | .seReg x y _ => getV x s == getV y s
  | .nop | .cls | .ret | .sys _ | .jp _ | .call _ | .ldImm _ _ | .addImm _ _ | .unimpl8 _ _ _ => false
  | .unimpl9 _ _ _ | .ldI _ | .unimplB _ | .unimplC _ _ | .drw _ _ _ | .unimplE _ _ | .ldVxDt _ => false
  | .ldVxK _ | .ldDtVx _ | .ldStVx _ | .addIVx _ | .ldFVx _ | .ldBVx _ | .ldIVx _ | .ldVxI _ => false
  | .fUnknown _ _ => false

end Sys2Proof.Machine
end

