-- ==== Sys2Proof/Certificates/Slice0/Obligations.lean ====
section
/-! DEFINITION. The statements for the provers. Each docstring names the rule of spec/ it formalises or, where it rests on a
choice the spec marks as its own or the model makes, the log entry under notes/assumptions/. -/

open Sys2Proof Sys2Proof.Machine

/-! Encoding -/

/-- Words written out from the tables of spec/30_encoding.md R86 to R88 decode to the instructions they stand for
(spec/95_test_vectors.md 2.1). The opcode numbers are PRESUMED (log 2); that `5XYN` ignores `N` is log 16. -/
def Obligations.SpecWordsDecodeToTheirInstructions : Prop :=
  decodeWord 0x0000#16 = .nop ∧ decodeWord 0x00E0#16 = .cls ∧ decodeWord 0x00EE#16 = .ret ∧
  decodeWord 0x01E0#16 = .sys 0x1E0#12 ∧ decodeWord 0x2300#16 = .call 0x300#12 ∧
  decodeWord 0x3C42#16 = .seImm 12 0x42#8 ∧ decodeWord 0x512F#16 = .seReg 1 2 0xF#4 ∧
  decodeWord 0x7A01#16 = .addImm 10 0x01#8 ∧ decodeWord 0x8124#16 = .unimpl8 1 2 0x4#4 ∧
  decodeWord 0xD7A5#16 = .drw 7 10 0x5#4 ∧ decodeWord 0xFA1E#16 = .addIVx 10 ∧
  decodeWord 0xF01F#16 = .fUnknown 0 0x1F#8

/-- Decoding the word of a well-formed instruction, and the two bytes Memory holds of it, gives the instruction back with
every field (spec/30_encoding.md R80 to R88; the opcode numbers are PRESUMED, log 2). -/
def Obligations.DecodingAnEncodingGivesItBack : Prop :=
  ∀ (i : Instr) (rest : List Byte), i.wellFormed = true →
    decodeWord (encode i) = i ∧ decode (encodeBytes i ++ rest) = .ok (i, rest)

/-- Every word is the encoding of what it decodes to, which is well-formed: no bit of a word is dropped and no word is without
an instruction (spec/30_encoding.md R89, R90; the opcode numbers are PRESUMED, log 2). -/
def Obligations.EncodingADecodingGivesTheWordBack : Prop :=
  ∀ w : Word, encode (decodeWord w) = w ∧ (decodeWord w).wellFormed = true

/-- Every word matches exactly one row of the opcode table once the `except` lists are applied, that of the instruction it
decodes to; and that row is also the first whose masked bits match (spec/30_encoding.md R89; the opcode numbers are PRESUMED,
log 2). -/
def Obligations.EveryWordMatchesExactlyItsRow : Prop :=
  ∀ w : Word,
    (opcodeRows.filter (rowMatches w)).map OpcodeRow.name = [(decodeWord w).rowName] ∧
    (opcodeRows.find? fun r => decide (w &&& r.mask = r.value)).map OpcodeRow.name = some (decodeWord w).rowName

/-! Memory and Display -/

/-- A byte written at an address of Memory is read back there; every other byte, and everything that is not Memory, is
unchanged (spec/20_memory.md R54). -/
def Obligations.WrittenByteIsReadBack : Prop :=
  ∀ (a : Nat) (b : Byte) (s : State), a < Config.memSize →
    ∃ t, writeByte a b s = .ok t ∧ readByte a t = .ok b ∧
      (∀ c, c ≠ a → Memory.read t.mem c = Memory.read s.mem c) ∧ { t with mem := s.mem } = s

/-- A word read from Memory is the byte at the address times 256 plus the byte after it (spec/20_memory.md R53). -/
def Obligations.WordReadIsBigEndian : Prop :=
  ∀ (a : Nat) (s : State), a + 1 < Config.memSize →
    ∃ w, readWord a s = .ok w ∧
      w.toNat = (Memory.read s.mem a).toNat * 256 + (Memory.read s.mem (a + 1)).toNat

/-- Every access out of range faults with the place and the program counter: the model's choice of `MEM_OOB` and `DISP_OOB`
(spec/20_memory.md R58, R63; log 6, 7); a word read reports its lower byte out of range (log 28). -/
def Obligations.AccessOutOfRangeFaults : Prop :=
  ∀ (s : State) (b : Byte) (p : Bool),
    (∀ a, Config.memSize ≤ a →
      readByte a s = .error (.memOutOfRange a s.pc) ∧ writeByte a b s = .error (.memOutOfRange a s.pc)) ∧
    (∀ a, Config.memSize ≤ a + 1 → readWord a s = .error (.memOutOfRange (max a Config.memSize) s.pc)) ∧
    (∀ x y, Config.dispW ≤ x ∨ Config.dispH ≤ y →
      dispGet x y s = .error (.dispOutOfRange x y s.pc) ∧ dispSet x y p s = .error (.dispOutOfRange x y s.pc))

/-- Two bytes stored at the program counter are the word the very next cycle runs, with no action by the program
(spec/20_memory.md R56 and its inference R66). -/
def Obligations.StoredBytesAreTheNextFetch : Prop :=
  ∀ (hi lo : Byte) (s : State), s.pc.toNat + 1 < Config.memSize →
    ∃ t u, writeByte s.pc.toNat hi s = .ok t ∧ writeByte (s.pc.toNat + 1) lo t = .ok u ∧
      fetchWord u = .ok (joinWord hi lo) ∧ (joinWord hi lo).toNat = hi.toNat * 256 + lo.toNat ∧
      step u = exec (decodeWord (joinWord hi lo)) u

/-- A pixel set on the grid is read back; every other cell is unchanged (spec/20_memory.md R62). -/
def Obligations.SetPixelIsReadBack : Prop :=
  ∀ (x y : Nat) (b : Bool) (s : State), x < Config.dispW → y < Config.dispH →
    ∃ t, dispSet x y b s = .ok t ∧ dispGet x y t = .ok b ∧
      (∀ x' y', ¬(x' = x ∧ y' = y) → dispGet x' y' t = dispGet x' y' s) ∧ { t with display := s.display } = s

/-! The cycle -/

/-- When the two bytes at the program counter decode to an instruction, the step is that instruction's meaning in the same
state, and nothing stands around it: the meaning itself commits the next program counter (spec/45_cycle.md R190). -/
def Obligations.StepRunsTheDecodedInstruction : Prop :=
  ∀ (s : State) (hi lo : Byte) (i : Instr),
    readByte s.pc.toNat s = .ok hi → readByte (s.pc.toNat + 1) s = .ok lo → decode [hi, lo] = .ok (i, []) →
      step s = exec i s

/-- A fetch whose word does not lie wholly in Memory faults before decode, whatever the state holds (spec/45_cycle.md R193; the
fault is the model's choice, log 6; the address reported, log 28). -/
def Obligations.FetchPastTheEndFaults : Prop :=
  ∀ s : State, Config.memSize ≤ s.pc.toNat + 1 →
    step s = .fault (.memOutOfRange (max s.pc.toNat Config.memSize) s.pc)

/-- Every step keeps the machine's invariant: Memory in its canonical form, every listed address an address of Memory. The form is
the model's own (what an unlisted byte reads as is log 3); that no address outside Memory holds a byte is spec/20_memory.md R50. -/
def Obligations.StepKeepsTheMemoryCanonical : Prop :=
  ∀ s t : State, s.Inv → step s = .next t → t.Inv

/-- The invariant holds after reset, and the reset operation keeps it (spec/70_reset_and_hazards.md R231; that nothing is listed at
power-up is log 3). -/
def Obligations.ResetMeetsTheMemoryInvariant : Prop :=
  State.reset.Inv ∧ ∀ s : State, s.Inv → (resetEngine s).Inv

/-- A cycle ends in a next state or in the fault of an access that is in fact out of range, made by the instruction at the
program counter; it never refuses (spec/45_cycle.md R192 and spec/60_exceptions.md R203, R206, with both policies `FAULT`,
log 6, 7, and no bound on the stack, log 8). -/
def Obligations.StepStopsOnlyOnAccessOutOfRange : Prop :=
  ∀ s : State, (∃ t, step s = .next t) ∨ ∃ f, step s = .fault f ∧ OutOfRangeFault s.pc f

/-! Whole-machine rules, over every instruction -/

/-- A general register that the table of spec/10_state.md R23 does not list as written keeps its value. -/
def Obligations.RegistersChangeOnlyWhereListed : Prop :=
  ∀ (i : Instr) (s t : State) (r : RegIdx),
    exec i s = .next t → writesReg i r = false → getV r t = getV r s

/-- A general register that the table of spec/10_state.md R23 does not list as read has no influence: with another value in it
the instruction does the same, and the register keeps that value unless the instruction writes it. That the position of `DRW` and
the addend of `ADD I` are read before `VF` is written is log 13. -/
def Obligations.RegistersNotReadDoNotMatter : Prop :=
  ∀ (i : Instr) (s : State) (r : RegIdx) (b : Byte), readsReg i r = false →
    (∀ t, exec i s = .next t → exec i (setV r b s) = .next (if writesReg i r then t else setV r b t)) ∧
    (∀ f, exec i s = .fault f → exec i (setV r b s) = .fault f)

/-- An instruction that the table of spec/10_state.md R32 does not list as writing `I` leaves it unchanged. -/
def Obligations.IndexChangesOnlyWhereListed : Prop :=
  ∀ (i : Instr) (s t : State), exec i s = .next t → writesIndex i = false → t.i = s.i

/-- `CALL` appends its own address to the call stack, `RET` removes the most recent entry, and no other instruction
changes the stack (spec/10_state.md R34; the stack has no bound, log 8, and is listed top first, log 30). -/
def Obligations.CallStackChangesOnlyInCallAndRet : Prop :=
  ∀ (i : Instr) (s t : State), exec i s = .next t →
    t.stack = match i with
      | .call _ => s.pc :: s.stack
      | .ret => s.stack.tail
      | _ => s.stack

/-- Only `LD B` and the dump change Memory; only `CLS` and `DRW` change the Display (spec/20_memory.md, the table of R50). -/
def Obligations.MemoryAndDisplayChangeOnlyWhereListed : Prop :=
  ∀ (i : Instr) (s t : State), exec i s = .next t →
    (match i with
      | .ldBVx _ | .ldIVx _ => True
      | _ => t.mem = s.mem) ∧
    (match i with
      | .cls | .drw _ _ _ => True
      | _ => t.display = s.display)

/-- The program counter goes on by 2 after every instruction but a jump, a call, a return that finds an entry, and a skip whose
comparison is true (spec/10_state.md R25). -/
def Obligations.PcGoesOnByTwoUnlessOverridden : Prop :=
  ∀ (i : Instr) (s t : State), exec i s = .next t →
    match i with
    | .jp _ | .call _ => True
    | .ret => s.stack = [] → PcGoesOnBy 2 s t
    | i => skips i s = false → PcGoesOnBy 2 s t

/-- Program-counter arithmetic is modulo 65536, the spec's own choice D8 (log 9): in sequence, after a taken skip, and after a
return that finds an entry. -/
def Obligations.PcArithmeticIsModulo65536 : Prop :=
  ∀ (i : Instr) (s t : State), exec i s = .next t →
    match i with
    | .jp _ | .call _ => True
    | .ret => t.pc.toNat = ((s.stack.headD s.pc).toNat + 2) % 65536
    | i => t.pc.toNat = (s.pc.toNat + if skips i s then 4 else 2) % 65536

/-- A cycle reports at most one diagnostic, after all those reported before (spec/60_exceptions.md R206; the stream is the
model's own field, log 19). -/
def Obligations.AtMostOneDiagnosticPerCycle : Prop :=
  ∀ s t : State, step s = .next t → t.diags = s.diags ∨ ∃ d, t.diags = s.diags ++ [d]

/-- No instruction reads the diagnostic output: with another stream before it the instruction does the same and appends the same
events (spec/60_exceptions.md R200; the stream is the model's own field, log 19). -/
def Obligations.DiagnosticOutputIsNeverRead : Prop :=
  ∀ (i : Instr) (s : State) (ds : List Diagnostic),
    (∀ t, exec i s = .next t →
      ∃ es, t.diags = s.diags ++ es ∧ exec i { s with diags := ds } = .next { t with diags := ds ++ es }) ∧
    (∀ f, exec i s = .fault f → exec i { s with diags := ds } = .fault f)

/-! No-ops -/

/-- `NOP` completes: the program counter goes on by 2, everything else is as it was, and nothing is reported
(spec/40_decode_dispatch.md R112; that it is silent is the spec's choice D16, log 17; the wrap is log 9). -/
def Obligations.NopOnlyAdvances : Prop :=
  ∀ s : State, exec .nop s = .next { s with pc := s.pc + 2#16 }

/-- The unsupported words of group `0x0` and the unimplemented families complete: they report one decode error with their word
and otherwise change nothing but the program counter (spec/40_decode_dispatch.md R113 to R117). That the event holds the word is the
spec's choice D17 (log 18); the address it holds is stated apart (`StepReportsTheFetchedWord`). -/
def Obligations.UnimplementedFamiliesAreDiagnosticNoOps : Prop :=
  ∀ (nnn : Addr12) (x y : RegIdx) (n : Nibble) (nn : Byte) (s : State),
    ∀ i ∈ [Instr.sys nnn, .unimpl8 x y n, .unimpl9 x y n, .unimplB nnn, .unimplC x nn],
      Completes (exec i s) fun t =>
        SameRegisters s t ∧ t.i = s.i ∧ t.stack = s.stack ∧ SameMemory s t ∧ t.display = s.display ∧
        PcGoesOnBy 2 s t ∧ ∃ a, t.diags = s.diags ++ [.decodeError (encode i) a]

/-- The key-state words of group `0xE`, the four timer and key words and the unrecognised low bytes of group `0xF` complete as
diagnostic no-ops (spec/40_decode_dispatch.md R118 to R123; the spec's choices D13, D14, D17: log 14, 15, 18; the wrap is log 9). -/
def Obligations.OutOfScopeWordsAreDiagnosticNoOps : Prop :=
  ∀ (x : RegIdx) (nn : Byte) (s : State),
    ∀ i ∈ [Instr.unimplE x nn, .ldVxDt x, .ldVxK x, .ldDtVx x, .ldStVx x, .fUnknown x nn],
      exec i s = .next { s with pc := s.pc + 2#16, diags := s.diags ++ [.decodeError (encode i) s.pc] }

/-- A cycle that fetches a word of one of the classes of spec/30_encoding.md R92 completes: it reports that very word with the
address it was fetched from, goes on by 2, and changes nothing else (spec/60_exceptions.md R201; the event's content is the spec's
choice D17, log 18; that the timer and key words, the unknown words of group `0xF` and the words of group `0xE` report is its choice
D13, D14, log 14, 15; the wrap is log 9). -/
def Obligations.StepReportsTheFetchedWord : Prop :=
  ∀ (s : State) (w : Word), fetchWord s = .ok w → isDiagNop (decodeWord w) = true →
    step s = .next { s with pc := s.pc + 2#16, diags := s.diags ++ [.decodeError w s.pc] }

/-! Flow control -/

/-- `JP` completes: the program counter is the 12-bit target, everything else as it was (spec/41_flow_control.md R130). -/
def Obligations.JumpSetsThePc : Prop :=
  ∀ (nnn : Addr12) (s : State), Completes (exec (.jp nnn) s) fun t =>
    t.pc.toNat = nnn.toNat ∧ SameRegisters s t ∧ t.i = s.i ∧ t.stack = s.stack ∧ SameMemory s t ∧
    t.display = s.display ∧ t.diags = s.diags

/-- `CALL` completes for every depth of the stack: its own address is pushed, the program counter is the target, everything else
as it was (spec/41_flow_control.md R131, with the unbounded stack of spec/10_state.md R35: log 8; top first: log 30). -/
def Obligations.CallPushesItsOwnAddressAndJumps : Prop :=
  ∀ (nnn : Addr12) (s : State), Completes (exec (.call nnn) s) fun t =>
    t.stack = s.pc :: s.stack ∧ t.pc.toNat = nnn.toNat ∧ SameRegisters s t ∧ t.i = s.i ∧ SameMemory s t ∧
    t.display = s.display ∧ t.diags = s.diags

/-- `RET` completes: it pops the most recent address and resumes 2 after it; on an empty stack it reports a stack underflow
and goes on by 2 with the stack still empty; nothing else changes (spec/41_flow_control.md R132). -/
def Obligations.RetResumesAfterTheCall : Prop :=
  ∀ s : State, Completes (exec .ret s) fun t =>
    SameRegisters s t ∧ t.i = s.i ∧ SameMemory s t ∧ t.display = s.display ∧
    (∀ a rest, s.stack = a :: rest →
      t.stack = rest ∧ (a.toNat + 2 < 65536 → t.pc.toNat = a.toNat + 2) ∧ t.diags = s.diags) ∧
    (s.stack = [] → t.stack = [] ∧ PcGoesOnBy 2 s t ∧ ∃ a, t.diags = s.diags ++ [.stackUnderflow a])

/-- `RET` on an empty stack reports the address of the `RET` (spec/60_exceptions.md R202; the event's content is the spec's choice
D17, log 18; the wrap is log 9). -/
def Obligations.RetOnEmptyStackReportsItsAddress : Prop :=
  ∀ s : State, s.stack = [] →
    exec .ret s = .next { s with pc := s.pc + 2#16, diags := s.diags ++ [.stackUnderflow s.pc] }

/-- `SE Vx, NN` and `SNE Vx, NN` complete: on a true comparison the program counter goes on by 4, else by 2, and nothing else
changes (spec/41_flow_control.md R133, R134). -/
def Obligations.ImmediateSkipsFollowTheComparison : Prop :=
  ∀ (x : RegIdx) (nn : Byte) (s : State),
    (Completes (exec (.seImm x nn) s) fun t =>
      (getV x s = nn → PcGoesOnBy 4 s t) ∧ (getV x s ≠ nn → PcGoesOnBy 2 s t) ∧ SameRegisters s t ∧ t.i = s.i ∧
      t.stack = s.stack ∧ SameMemory s t ∧ t.display = s.display ∧ t.diags = s.diags) ∧
    (Completes (exec (.sneImm x nn) s) fun t =>
      (getV x s ≠ nn → PcGoesOnBy 4 s t) ∧ (getV x s = nn → PcGoesOnBy 2 s t) ∧ SameRegisters s t ∧ t.i = s.i ∧
      t.stack = s.stack ∧ SameMemory s t ∧ t.display = s.display ∧ t.diags = s.diags)

/-- `SE Vx, Vy` completes for every low nibble: on equal registers the program counter goes on by 4, else by 2, and nothing
else changes (spec/41_flow_control.md R135). -/
def Obligations.RegisterSkipIgnoresTheLowNibble : Prop :=
  ∀ (x y : RegIdx) (n : Nibble) (s : State), Completes (exec (.seReg x y n) s) fun t =>
    (getV x s = getV y s → PcGoesOnBy 4 s t) ∧ (getV x s ≠ getV y s → PcGoesOnBy 2 s t) ∧ SameRegisters s t ∧
    t.i = s.i ∧ t.stack = s.stack ∧ SameMemory s t ∧ t.display = s.display ∧ t.diags = s.diags

/-- A return resumes two bytes after the call whose entry it finds, with the stack as it was before that call
(spec/95_test_vectors.md E3; the wrap is log 9). -/
def Obligations.RetUndoesTheCall : Prop :=
  ∀ (nnn : Addr12) (s t u : State), exec (.call nnn) s = .next t → u.stack = t.stack →
    Completes (exec .ret u) fun r => r.stack = s.stack ∧ r.pc = s.pc + 2#16

/-- A jump to its own address is a fixed point of the cycle: the state is exactly as it was
(spec/70_reset_and_hazards.md R243, an inference of the spec's). -/
def Obligations.JumpToItselfIsFixedPoint : Prop :=
  ∀ (nnn : Addr12) (s : State), fetchWord s = .ok (encode (.jp nnn)) → s.pc.toNat = nnn.toNat → step s = .next s

/-! Registers and constants -/

/-- `LD Vx, NN` completes: the register, the flag register among them, holds the immediate; nothing else changes but the
program counter (spec/42_register_constant.md R150). -/
def Obligations.LoadImmediateSetsTheRegister : Prop :=
  ∀ (x : RegIdx) (nn : Byte) (s : State), Completes (exec (.ldImm x nn) s) fun t =>
    getV x t = nn ∧ SameRegistersBut x s t ∧ PcGoesOnBy 2 s t ∧ t.i = s.i ∧ t.stack = s.stack ∧ SameMemory s t ∧
    t.display = s.display ∧ t.diags = s.diags

/-- `ADD Vx, NN` completes: the register holds the sum modulo 256 and no other register, the flag register among them,
changes (spec/42_register_constant.md R151). -/
def Obligations.AddImmediateWrapsWithoutFlag : Prop :=
  ∀ (x : RegIdx) (nn : Byte) (s : State), Completes (exec (.addImm x nn) s) fun t =>
    (getV x t).toNat = ((getV x s).toNat + nn.toNat) % 256 ∧ SameRegistersBut x s t ∧ PcGoesOnBy 2 s t ∧ t.i = s.i ∧
    t.stack = s.stack ∧ SameMemory s t ∧ t.display = s.display ∧ t.diags = s.diags

/-! The index register and Memory -/

/-- `LD I, NNN` completes: `I` is the immediate with bits 15 to 12 clear, `VF` and everything else as it was but the program
counter (spec/43_memory_address.md R160). -/
def Obligations.LoadIndexSetsTwelveBits : Prop :=
  ∀ (nnn : Addr12) (s : State), Completes (exec (.ldI nnn) s) fun t =>
    t.i.toNat = nnn.toNat ∧ SameRegisters s t ∧ PcGoesOnBy 2 s t ∧ t.stack = s.stack ∧ SameMemory s t ∧
    t.display = s.display ∧ t.diags = s.diags

/-- `ADD I, Vx` completes: `I` is the sum modulo 65536 of the old `I` and the old `V[X]`, `VF` is 1 when the new `I` is at or
above `0xFFF`, else 0 (spec/43_memory_address.md R162; the wrap and the flag on the wrapped sum are the spec's choice D9, log 10;
reading `VF` as operand first is D12, log 13; the threshold is log 1). -/
def Obligations.AddIndexSetsTheThresholdFlag : Prop :=
  ∀ (x : RegIdx) (s : State), Completes (exec (.addIVx x) s) fun t =>
    t.i.toNat = (s.i.toNat + (getV x s).toNat) % 65536 ∧
    (0xFFF ≤ t.i.toNat → getV 15 t = 1#8) ∧ (t.i.toNat < 0xFFF → getV 15 t = 0#8) ∧
    SameRegistersBut 15 s t ∧ PcGoesOnBy 2 s t ∧ t.stack = s.stack ∧ SameMemory s t ∧ t.display = s.display ∧
    t.diags = s.diags

/-- `LD F, Vx` completes: `I` is `0x50 + V[X] * 5` for every value of `V[X]`, `VF` and everything else as it was but the program
counter (spec/43_memory_address.md R163; a value above 15 is the spec's choice D11, log 12). -/
def Obligations.FontLookupComputesTheGlyphAddress : Prop :=
  ∀ (x : RegIdx) (s : State), Completes (exec (.ldFVx x) s) fun t =>
    t.i.toNat = 0x50 + (getV x s).toNat * 5 ∧ SameRegisters s t ∧ PcGoesOnBy 2 s t ∧ t.stack = s.stack ∧
    SameMemory s t ∧ t.display = s.display ∧ t.diags = s.diags

/-- `LD B, Vx` completes where its three bytes lie in Memory: they are the decimal digits of `V[X]`; every other byte and
everything else is as it was, `I` too, but the program counter (spec/43_memory_address.md R164). -/
def Obligations.BcdStoresTheThreeDigits : Prop :=
  ∀ (x : RegIdx) (s : State), s.i.toNat + 2 < Config.memSize → Completes (exec (.ldBVx x) s) fun t =>
    (Memory.read t.mem s.i.toNat).toNat = (getV x s).toNat / 100 ∧
    (Memory.read t.mem (s.i.toNat + 1)).toNat = (getV x s).toNat / 10 % 10 ∧
    (Memory.read t.mem (s.i.toNat + 2)).toNat = (getV x s).toNat % 10 ∧
    SameMemoryOutside s.i.toNat 3 s t ∧ SameRegisters s t ∧ t.i = s.i ∧ PcGoesOnBy 2 s t ∧ t.stack = s.stack ∧
    t.display = s.display ∧ t.diags = s.diags

/-- `LD [I], Vx` completes where its `X + 1` bytes lie in Memory: byte `k` is register `k`, `I` has gone on by `X + 1`; every
other byte and everything else is as it was but the program counter (spec/43_memory_address.md R165). -/
def Obligations.DumpStoresTheRegisters : Prop :=
  ∀ (x : RegIdx) (s : State), s.i.toNat + x.val < Config.memSize → Completes (exec (.ldIVx x) s) fun t =>
    (∀ r : RegIdx, r ≤ x → Memory.read t.mem (s.i.toNat + r.val) = getV r s) ∧
    SameMemoryOutside s.i.toNat (x.val + 1) s t ∧ t.i.toNat = s.i.toNat + x.val + 1 ∧ SameRegisters s t ∧
    PcGoesOnBy 2 s t ∧ t.stack = s.stack ∧ t.display = s.display ∧ t.diags = s.diags

/-- `LD Vx, [I]` completes where its `X + 1` bytes lie in Memory: register `k` is byte `k`, the registers above `X` and
everything else are as they were, `I` has gone on by `X + 1` (spec/43_memory_address.md R166). -/
def Obligations.RestoreLoadsTheRegisters : Prop :=
  ∀ (x : RegIdx) (s : State), s.i.toNat + x.val < Config.memSize → Completes (exec (.ldVxI x) s) fun t =>
    (∀ r : RegIdx, r ≤ x → getV r t = Memory.read s.mem (s.i.toNat + r.val)) ∧
    (∀ r : RegIdx, x < r → getV r t = getV r s) ∧ t.i.toNat = s.i.toNat + x.val + 1 ∧ SameMemory s t ∧
    PcGoesOnBy 2 s t ∧ t.stack = s.stack ∧ t.display = s.display ∧ t.diags = s.diags

/-- `LD B`, the dump and the restore stop where one of their bytes lies past the end of Memory, on the first such address
(spec/60_exceptions.md R206; that they stop is the model's choice of `MEM_OOB`, log 6; the addresses are not wrapped, log 11; that
`LD B` writes at rising addresses is the spec's choice D21, log 21). -/
def Obligations.ByteRangePastTheEndFaults : Prop :=
  ∀ (x : RegIdx) (s : State),
    (Config.memSize ≤ s.i.toNat + 2 →
      exec (.ldBVx x) s = .fault (.memOutOfRange (max s.i.toNat Config.memSize) s.pc)) ∧
    (Config.memSize ≤ s.i.toNat + x.val →
      exec (.ldIVx x) s = .fault (.memOutOfRange (max s.i.toNat Config.memSize) s.pc) ∧
      exec (.ldVxI x) s = .fault (.memOutOfRange (max s.i.toNat Config.memSize) s.pc))

/-- What a dump has stored, a restore from the same address brings back into registers `0 .. X`, whatever they held, and `I`
ends where the dump left it (spec/95_test_vectors.md E9). -/
def Obligations.RestoreUndoesTheDump : Prop :=
  ∀ (x : RegIdx) (s t u : State), exec (.ldIVx x) s = .next t → u.mem = t.mem → u.i = s.i →
    Completes (exec (.ldVxI x) u) fun r =>
      (∀ q : RegIdx, q ≤ x → getV q r = getV q s) ∧ (∀ q : RegIdx, x < q → getV q r = getV q u) ∧ r.i = t.i

/-! Display -/

/-- `CLS` completes: every pixel is off, `VF` and everything else as it was but the program counter
(spec/44_display.md R180). -/
def Obligations.ClearTurnsEveryPixelOff : Prop :=
  ∀ s : State, Completes (exec .cls s) fun t =>
    (∀ x y, Display.get t.display x y = false) ∧ SameRegisters s t ∧ PcGoesOnBy 2 s t ∧ t.i = s.i ∧
    t.stack = s.stack ∧ SameMemory s t ∧ t.diags = s.diags

/-- `DRW` completes where the sprite fits: exactly the pixels under its set bits are flipped, `VF` is 1 when one of them was on and
else 0, and everything else is as it was, `I` too, but the program counter (spec/44_display.md R181, R182; that the position is
read before `VF` is reset is the spec's choice D12, log 13). -/
def Obligations.DrawFlipsExactlyTheSpritePixels : Prop :=
  ∀ (x y : RegIdx) (n : Nibble) (s : State), SpriteFits s (getV x s).toNat (getV y s).toNat n.toNat →
    Completes (exec (.drw x y n) s) fun t =>
      (∀ px py, Display.get t.display px py =
        (Display.get s.display px py ^^ spriteCovers s (getV x s).toNat (getV y s).toNat n.toNat px.val py.val)) ∧
      (SpriteCollides s (getV x s).toNat (getV y s).toNat n.toNat → getV 15 t = 1#8) ∧
      (¬SpriteCollides s (getV x s).toNat (getV y s).toNat n.toNat → getV 15 t = 0#8) ∧
      SameRegistersBut 15 s t ∧ t.i = s.i ∧ PcGoesOnBy 2 s t ∧ t.stack = s.stack ∧ SameMemory s t ∧ t.diags = s.diags

/-- `DRW` completes exactly where the sprite fits; where it does not it faults on an access that is in fact out of range: no
wrapping and no clipping, and only set bits touch the Display (spec/44_display.md R182; the fault is the model's choice, log 6, 7; that the position is read before `VF` is reset is
the spec's choice D12, log 13; that `I + r` is not reduced is its choice D10, log 11). -/
def Obligations.DrawCompletesExactlyWhereItFits : Prop :=
  ∀ (x y : RegIdx) (n : Nibble) (s : State),
    ((∃ t, exec (.drw x y n) s = .next t) ↔ SpriteFits s (getV x s).toNat (getV y s).toNat n.toNat) ∧
    (¬SpriteFits s (getV x s).toNat (getV y s).toNat n.toNat →
      ∃ f, exec (.drw x y n) s = .fault f ∧ OutOfRangeFault s.pc f)

/-- Drawing the same sprite at the same place again restores the Display; the second draw's flag is 1 exactly when the first
turned a pixel on (spec/44_display.md R182, Double draw; spec/95_test_vectors.md E6; the order of reading `VF`, log 13). -/
def Obligations.DrawingTwiceRestoresTheDisplay : Prop :=
  ∀ (x y : RegIdx) (n : Nibble) (s t u : State), exec (.drw x y n) s = .next t →
    u.mem = t.mem → u.i = t.i → u.display = t.display → getV x u = getV x s → getV y u = getV y s →
    Completes (exec (.drw x y n) u) fun r =>
      r.display = s.display ∧
      ((∃ px py, Display.get s.display px py = false ∧ Display.get t.display px py = true) → getV 15 r = 1#8) ∧
      ((¬∃ px py, Display.get s.display px py = false ∧ Display.get t.display px py = true) → getV 15 r = 0#8)

/-! Reset and boot -/

/-- The reset operation leaves Memory and the Display as they are (spec/70_reset_and_hazards.md R231). -/
def Obligations.ResetLeavesMemoryAndDisplay : Prop :=
  ∀ s : State, SameMemory s (resetEngine s) ∧ (∀ x y, Display.get (resetEngine s).display x y = Display.get s.display x y)

/-- The reset operation sets the program counter to `0x200`, empties the stack, and zeroes the general registers and `I`, whatever
they held; applied twice it does what it does once (spec/10_state.md R40; the zeros are the spec's choice D3, log 5; that it may be
applied any number of times is D24, log 23). -/
def Obligations.ResetSetsTheCoreState : Prop :=
  ∀ s : State, (resetEngine s).pc.toNat = 0x200 ∧ (resetEngine s).stack = [] ∧ (∀ r, getV r (resetEngine s) = 0#8) ∧
    (resetEngine s).i.toNat = 0 ∧ resetEngine (resetEngine s) = resetEngine s

/-- The state at power-up is one the reset operation leaves as it is, every byte of Memory reads 0 and every pixel is off
(spec/70_reset_and_hazards.md R235, the recommended instances: the model's choice, log 3, 4, 5). -/
def Obligations.PowerUpStateIsClear : Prop :=
  resetEngine State.reset = State.reset ∧ State.reset.pc.toNat = 0x200 ∧ State.reset.stack = [] ∧
  (∀ a, a < Config.memSize → readByte a State.reset = .ok 0#8) ∧ (∀ x y, Display.get State.reset.display x y = false) ∧
  State.reset.diags = []

/-- The ROM loader puts byte `k` of an image of at most 3584 bytes at `0x200 + k`; every other byte and everything that is not
Memory is as it was (spec/70_reset_and_hazards.md R236). -/
def Obligations.RomBytesAreLoadedFrom0x200 : Prop :=
  ∀ (image : List Byte) (s : State), image.length ≤ 3584 →
    ∃ t, loadRom image s = .ok t ∧
      (∀ k (h : k < image.length), Memory.read t.mem (0x200 + k) = image[k]) ∧
      SameMemoryOutside 0x200 image.length s t ∧ { t with mem := s.mem } = s

/-- The font loader puts byte `k` of the glyph of a character at `0x50 + 5 * character + k`, where `LD F` points; every other byte
and everything that is not Memory is as it was (spec/70_reset_and_hazards.md R237; the bytes are PRESUMED, log 26). -/
def Obligations.FontGlyphsAreLoadedWhereLookupPoints : Prop :=
  ∀ s : State, ∃ t, loadFont s = .ok t ∧
    (∀ (c : Fin 16) (k : Fin 5),
      some (Memory.read t.mem ((glyphAddr (BitVec.ofNat 8 c.val)).toNat + k.val)) = fontTable[c.val * 5 + k.val]?) ∧
    SameMemoryOutside 0x50 80 s t ∧ { t with mem := s.mem } = s

/-- After the boot sequence on any state with an image of at least one word that fits, the first cycle runs the image's first
word (spec/70_reset_and_hazards.md R238, an inference of the spec's; how a program comes to run is log 25). -/
def Obligations.BootedMachineRunsTheFirstWord : Prop :=
  ∀ (hi lo : Byte) (rest : List Byte) (s : State), rest.length + 2 ≤ 3584 →
    ∃ t, boot (hi :: lo :: rest) s = .ok t ∧ t.pc.toNat = 0x200 ∧ t.stack = [] ∧
      step t = exec (decodeWord (joinWord hi lo)) t

/-- A push on a call stack with a bound faults exactly when the stack is full, and otherwise does what a push on the unbounded
stack does (spec/60_exceptions.md R205, the spec's choice D7, log 8; the machine's stack is unbounded). -/
def Obligations.BoundedStackFaultsWhenFull : Prop :=
  ∀ (depth : Nat) (a : Word) (s : State),
    (s.stack.length < depth → pushStack (some depth) a s = pushStack none a s) ∧
    (depth ≤ s.stack.length → pushStack (some depth) a s = .error (.stackOverflow s.pc)) ∧
    pushStack none a s = .ok { s with stack := a :: s.stack }

/-! The OPEN parameters as arguments -/

/-- An access in range does not see the policy; one out of range does what a policy that answers says, and changes nothing but the
Memory or the Display it belongs to (spec/20_memory.md R58, R63: the parameters `MEM_OOB` and `DISP_OOB`, of which the machine takes
`FAULT`, log 6, 7; the form of a policy is log 32). -/
def Obligations.AccessOutOfRangeFollowsThePolicy : Prop :=
  ∀ (p : MemPolicy) (d : DispPolicy) (s : State) (b : Byte) (v : Bool),
    (∀ a m, a < Config.memSize → readByteUnder m a s = readByte a s ∧ writeByteUnder m a b s = writeByte a b s) ∧
    (∀ a, Config.memSize ≤ a → readByteUnder (.answers p) a s = .ok (p.readByte a s.mem) ∧
      writeByteUnder (.answers p) a b s = .ok { s with mem := p.writeByte a b s.mem }) ∧
    (∀ a m, a + 1 < Config.memSize → readWordUnder m a s = readWord a s) ∧
    (∀ a, Config.memSize ≤ a + 1 → readWordUnder (.answers p) a s = .ok (p.readWord a s.mem)) ∧
    (∀ x y e, x < Config.dispW ∧ y < Config.dispH →
      dispGetUnder e x y s = dispGet x y s ∧ dispSetUnder e x y v s = dispSet x y v s) ∧
    (∀ x y, Config.dispW ≤ x ∨ Config.dispH ≤ y → dispGetUnder (.answers d) x y s = .ok (d.get x y s.display) ∧
      dispSetUnder (.answers d) x y v s = .ok { s with display := d.set x y v s.display })

/-- A cycle that completes with both policies `FAULT` makes no access out of range, so it completes with the same next state whatever
the Memory and the Display do there (spec/45_cycle.md R192; spec/60_exceptions.md R204). -/
def Obligations.CompletedCycleDoesNotSeeThePolicies : Prop :=
  ∀ (p : Params) (s t : State), p.stackDepth = none → step s = .next t → stepUnder p s = .next t

/-- With a Memory and a Display that answer every access, and no bound on the stack, every cycle of every state completes: the core
goes on as if the access had been in range (spec/60_exceptions.md R204; the form of a policy is log 32). -/
def Obligations.PoliciesThatAnswerNeverStopACycle : Prop :=
  ∀ (m : MemPolicy) (d : DispPolicy) (s : State),
    ∃ t, stepUnder { memOob := .answers m, dispOob := .answers d, stackDepth := none } s = .next t

/-- At power-up every byte of Memory and every pixel is what `MEM_INIT` and `DISP_INIT` say, and everything else is as after reset
(spec/70_reset_and_hazards.md R235; the values after reset are log 5, the form of Memory is the model's own). -/
def Obligations.PowerUpHoldsTheGivenContents : Prop :=
  ∀ (memInit : Nat → Byte) (dispInit : Nat → Nat → Bool),
    (∀ a, a < Config.memSize → readByte a (powerUp memInit dispInit) = .ok (memInit a)) ∧
    (∀ x y, Display.get (powerUp memInit dispInit).display x y = dispInit x.val y.val) ∧
    (powerUp memInit dispInit).Inv ∧ resetEngine (powerUp memInit dispInit) = powerUp memInit dispInit ∧
    { powerUp memInit dispInit with mem := State.reset.mem, display := State.reset.display } = State.reset
end

