-- ==== Sys2Proof/Laws/State.lean ====
section
/-! SUPPORT. What each update of the state does to each field: one lemma per field per update, so that no later proof
unfolds a record update. -/

namespace Sys2Proof.Machine

/-! `setMem` -/

@[simp] theorem setMem_v (m : Memory) (s : State) : (setMem m s).v = s.v := rfl
@[simp] theorem setMem_i (m : Memory) (s : State) : (setMem m s).i = s.i := rfl
@[simp] theorem setMem_pc (m : Memory) (s : State) : (setMem m s).pc = s.pc := rfl
@[simp] theorem setMem_stack (m : Memory) (s : State) : (setMem m s).stack = s.stack := rfl
@[simp] theorem setMem_mem (m : Memory) (s : State) : (setMem m s).mem = m := rfl
@[simp] theorem setMem_display (m : Memory) (s : State) : (setMem m s).display = s.display := rfl
@[simp] theorem setMem_diags (m : Memory) (s : State) : (setMem m s).diags = s.diags := rfl

/-! `setDisplay` -/

@[simp] theorem setDisplay_v (d : Display) (s : State) : (setDisplay d s).v = s.v := rfl
@[simp] theorem setDisplay_i (d : Display) (s : State) : (setDisplay d s).i = s.i := rfl
@[simp] theorem setDisplay_pc (d : Display) (s : State) : (setDisplay d s).pc = s.pc := rfl
@[simp] theorem setDisplay_stack (d : Display) (s : State) : (setDisplay d s).stack = s.stack := rfl
@[simp] theorem setDisplay_mem (d : Display) (s : State) : (setDisplay d s).mem = s.mem := rfl
@[simp] theorem setDisplay_display (d : Display) (s : State) : (setDisplay d s).display = d := rfl
@[simp] theorem setDisplay_diags (d : Display) (s : State) : (setDisplay d s).diags = s.diags := rfl

/-! `setStack` -/

@[simp] theorem setStack_v (l : List Word) (s : State) : (setStack l s).v = s.v := rfl
@[simp] theorem setStack_i (l : List Word) (s : State) : (setStack l s).i = s.i := rfl
@[simp] theorem setStack_pc (l : List Word) (s : State) : (setStack l s).pc = s.pc := rfl
@[simp] theorem setStack_stack (l : List Word) (s : State) : (setStack l s).stack = l := rfl
@[simp] theorem setStack_mem (l : List Word) (s : State) : (setStack l s).mem = s.mem := rfl
@[simp] theorem setStack_display (l : List Word) (s : State) : (setStack l s).display = s.display := rfl
@[simp] theorem setStack_diags (l : List Word) (s : State) : (setStack l s).diags = s.diags := rfl

/-! `setV` -/

@[simp] theorem setV_v (r : RegIdx) (b : Byte) (s : State) : (setV r b s).v = s.v.set r b := rfl
@[simp] theorem setV_i (r : RegIdx) (b : Byte) (s : State) : (setV r b s).i = s.i := rfl
@[simp] theorem setV_pc (r : RegIdx) (b : Byte) (s : State) : (setV r b s).pc = s.pc := rfl
@[simp] theorem setV_stack (r : RegIdx) (b : Byte) (s : State) : (setV r b s).stack = s.stack := rfl
@[simp] theorem setV_mem (r : RegIdx) (b : Byte) (s : State) : (setV r b s).mem = s.mem := rfl
@[simp] theorem setV_display (r : RegIdx) (b : Byte) (s : State) : (setV r b s).display = s.display := rfl
@[simp] theorem setV_diags (r : RegIdx) (b : Byte) (s : State) : (setV r b s).diags = s.diags := rfl

/-! `setI` -/

@[simp] theorem setI_v (a : Word) (s : State) : (setI a s).v = s.v := rfl
@[simp] theorem setI_i (a : Word) (s : State) : (setI a s).i = a := rfl
@[simp] theorem setI_pc (a : Word) (s : State) : (setI a s).pc = s.pc := rfl
@[simp] theorem setI_stack (a : Word) (s : State) : (setI a s).stack = s.stack := rfl
@[simp] theorem setI_mem (a : Word) (s : State) : (setI a s).mem = s.mem := rfl
@[simp] theorem setI_display (a : Word) (s : State) : (setI a s).display = s.display := rfl
@[simp] theorem setI_diags (a : Word) (s : State) : (setI a s).diags = s.diags := rfl

/-! `report` -/

@[simp] theorem report_v (d : Diagnostic) (s : State) : (report d s).v = s.v := rfl
@[simp] theorem report_i (d : Diagnostic) (s : State) : (report d s).i = s.i := rfl
@[simp] theorem report_pc (d : Diagnostic) (s : State) : (report d s).pc = s.pc := rfl
@[simp] theorem report_stack (d : Diagnostic) (s : State) : (report d s).stack = s.stack := rfl
@[simp] theorem report_mem (d : Diagnostic) (s : State) : (report d s).mem = s.mem := rfl
@[simp] theorem report_display (d : Diagnostic) (s : State) : (report d s).display = s.display := rfl
@[simp] theorem report_diags (d : Diagnostic) (s : State) : (report d s).diags = s.diags ++ [d] := rfl

/-! `advance` -/

@[simp] theorem advance_v (s : State) : (advance s).v = s.v := rfl
@[simp] theorem advance_i (s : State) : (advance s).i = s.i := rfl
@[simp] theorem advance_pc (s : State) : (advance s).pc = s.pc + 2#16 := rfl
@[simp] theorem advance_stack (s : State) : (advance s).stack = s.stack := rfl
@[simp] theorem advance_mem (s : State) : (advance s).mem = s.mem := rfl
@[simp] theorem advance_display (s : State) : (advance s).display = s.display := rfl
@[simp] theorem advance_diags (s : State) : (advance s).diags = s.diags := rfl

/-! `jumpTo` -/

@[simp] theorem jumpTo_v (a : Word) (s : State) : (jumpTo a s).v = s.v := rfl
@[simp] theorem jumpTo_i (a : Word) (s : State) : (jumpTo a s).i = s.i := rfl
@[simp] theorem jumpTo_pc (a : Word) (s : State) : (jumpTo a s).pc = a := rfl
@[simp] theorem jumpTo_stack (a : Word) (s : State) : (jumpTo a s).stack = s.stack := rfl
@[simp] theorem jumpTo_mem (a : Word) (s : State) : (jumpTo a s).mem = s.mem := rfl
@[simp] theorem jumpTo_display (a : Word) (s : State) : (jumpTo a s).display = s.display := rfl
@[simp] theorem jumpTo_diags (a : Word) (s : State) : (jumpTo a s).diags = s.diags := rfl

/-! `dispClear` -/

@[simp] theorem dispClear_v (s : State) : (dispClear s).v = s.v := rfl
@[simp] theorem dispClear_i (s : State) : (dispClear s).i = s.i := rfl
@[simp] theorem dispClear_pc (s : State) : (dispClear s).pc = s.pc := rfl
@[simp] theorem dispClear_stack (s : State) : (dispClear s).stack = s.stack := rfl
@[simp] theorem dispClear_mem (s : State) : (dispClear s).mem = s.mem := rfl
@[simp] theorem dispClear_display (s : State) : (dispClear s).display = Vector.replicate Config.dispH (Vector.replicate Config.dispW false) := rfl
@[simp] theorem dispClear_diags (s : State) : (dispClear s).diags = s.diags := rfl

/-! `setFlag` -/

@[simp] theorem setFlag_v (b : Byte) (s : State) : (setFlag b s).v = s.v.set flagReg b := rfl
@[simp] theorem setFlag_i (b : Byte) (s : State) : (setFlag b s).i = s.i := rfl
@[simp] theorem setFlag_pc (b : Byte) (s : State) : (setFlag b s).pc = s.pc := rfl
@[simp] theorem setFlag_stack (b : Byte) (s : State) : (setFlag b s).stack = s.stack := rfl
@[simp] theorem setFlag_mem (b : Byte) (s : State) : (setFlag b s).mem = s.mem := rfl
@[simp] theorem setFlag_display (b : Byte) (s : State) : (setFlag b s).display = s.display := rfl
@[simp] theorem setFlag_diags (b : Byte) (s : State) : (setFlag b s).diags = s.diags := rfl

/-! `resetEngine` -/

@[simp] theorem resetEngine_v (s : State) : (resetEngine s).v = Vector.replicate 16 0x00#8 := rfl
@[simp] theorem resetEngine_i (s : State) : (resetEngine s).i = 0x0000#16 := rfl
@[simp] theorem resetEngine_pc (s : State) : (resetEngine s).pc = Config.pcReset := rfl
@[simp] theorem resetEngine_stack (s : State) : (resetEngine s).stack = [] := rfl
@[simp] theorem resetEngine_mem (s : State) : (resetEngine s).mem = s.mem := rfl
@[simp] theorem resetEngine_display (s : State) : (resetEngine s).display = s.display := rfl
@[simp] theorem resetEngine_diags (s : State) : (resetEngine s).diags = s.diags := rfl

/-! `skipIf` -/

@[simp] theorem skipIf_pc (c : Bool) (s : State) :
    (skipIf c s).pc = if c then s.pc + 2#16 + 2#16 else s.pc + 2#16 := by cases c <;> rfl
@[simp] theorem skipIf_v (c : Bool) (s : State) : (skipIf c s).v = s.v := by cases c <;> rfl
@[simp] theorem skipIf_i (c : Bool) (s : State) : (skipIf c s).i = s.i := by cases c <;> rfl
@[simp] theorem skipIf_stack (c : Bool) (s : State) : (skipIf c s).stack = s.stack := by cases c <;> rfl
@[simp] theorem skipIf_mem (c : Bool) (s : State) : (skipIf c s).mem = s.mem := by cases c <;> rfl
@[simp] theorem skipIf_display (c : Bool) (s : State) : (skipIf c s).display = s.display := by cases c <;> rfl
@[simp] theorem skipIf_diags (c : Bool) (s : State) : (skipIf c s).diags = s.diags := by cases c <;> rfl

/-! `noteCollision` -/

@[simp] theorem noteCollision_v (old : Bool) (s : State) :
    (noteCollision old s).v = if old then s.v.set flagReg 1#8 else s.v := by cases old <;> rfl
@[simp] theorem noteCollision_i (old : Bool) (s : State) : (noteCollision old s).i = s.i := by cases old <;> rfl
@[simp] theorem noteCollision_pc (old : Bool) (s : State) : (noteCollision old s).pc = s.pc := by cases old <;> rfl
@[simp] theorem noteCollision_stack (old : Bool) (s : State) : (noteCollision old s).stack = s.stack := by cases old <;> rfl
@[simp] theorem noteCollision_mem (old : Bool) (s : State) : (noteCollision old s).mem = s.mem := by cases old <;> rfl
@[simp] theorem noteCollision_display (old : Bool) (s : State) : (noteCollision old s).display = s.display := by cases old <;> rfl
@[simp] theorem noteCollision_diags (old : Bool) (s : State) : (noteCollision old s).diags = s.diags := by cases old <;> rfl

/-! Reading a general register after an update -/

theorem getV_eq_of_v {s t : State} (h : t.v = s.v) (r : RegIdx) : getV r t = getV r s := by simp only [getV, h]

@[simp] theorem getV_setV_self (r : RegIdx) (b : Byte) (s : State) : getV r (setV r b s) = b := by simp [getV]

theorem getV_setV_of_ne {q r : RegIdx} (h : q ≠ r) (b : Byte) (s : State) : getV q (setV r b s) = getV q s := by
  have h' : r.val ≠ q.val := fun e => h (Fin.ext e.symm)
  simp [getV, h']

theorem getV_setV (q r : RegIdx) (b : Byte) (s : State) : getV q (setV r b s) = if q = r then b else getV q s := by
  split
  · subst q; exact getV_setV_self r b s
  · exact getV_setV_of_ne ‹_› b s

@[simp] theorem getV_setMem (r : RegIdx) (m : Memory) (s : State) : getV r (setMem m s) = getV r s := rfl
@[simp] theorem getV_setDisplay (r : RegIdx) (d : Display) (s : State) : getV r (setDisplay d s) = getV r s := rfl
@[simp] theorem getV_setStack (r : RegIdx) (l : List Word) (s : State) : getV r (setStack l s) = getV r s := rfl
@[simp] theorem getV_setI (r : RegIdx) (a : Word) (s : State) : getV r (setI a s) = getV r s := rfl
@[simp] theorem getV_report (r : RegIdx) (d : Diagnostic) (s : State) : getV r (report d s) = getV r s := rfl
@[simp] theorem getV_advance (r : RegIdx) (s : State) : getV r (advance s) = getV r s := rfl
@[simp] theorem getV_jumpTo (r : RegIdx) (a : Word) (s : State) : getV r (jumpTo a s) = getV r s := rfl
@[simp] theorem getV_dispClear (r : RegIdx) (s : State) : getV r (dispClear s) = getV r s := rfl
@[simp] theorem getV_skipIf (r : RegIdx) (c : Bool) (s : State) : getV r (skipIf c s) = getV r s :=
  getV_eq_of_v (skipIf_v c s) r
@[simp] theorem getV_resetEngine (r : RegIdx) (s : State) : getV r (resetEngine s) = 0x00#8 := by simp [getV]

@[simp] theorem setI_setI (a b : Word) (s : State) : setI a (setI b s) = setI a s := rfl

/-- Two states with the same registers, read one by one, and the same other fields are the same state. -/
theorem State.ext_getV {s t : State} (hv : ∀ r, getV r s = getV r t) (hi : s.i = t.i) (hpc : s.pc = t.pc)
    (hst : s.stack = t.stack) (hm : s.mem = t.mem) (hd : s.display = t.display) (hg : s.diags = t.diags) : s = t := by
  cases s; cases t
  simp only [State.mk.injEq] at *
  refine ⟨Vector.ext fun k hk => ?_, hi, hpc, hst, hm, hd, hg⟩
  exact hv ⟨k, hk⟩

end Sys2Proof.Machine
end

