-- ==== Sys2Proof/Laws/Memory.lean ====
section
/-! SUPPORT. Memory and the Display as data: reading after writing, and the canonical form of Memory, which every memory
operation keeps. -/

namespace Sys2Proof.Machine

/-! Memory: reading after writing holds for every list, canonical or not -/

theorem Memory.read_erase (m : Memory) (addr a : Nat) :
    Memory.read (Memory.erase m addr) a = if a = addr then Config.memInit else Memory.read m a := by
  induction m with
  | nil => simp [Memory.erase, Memory.read]
  | cons c m ih =>
    simp only [Memory.erase] at ih ⊢
    by_cases hc : c.1 = addr
    · by_cases ha : a = addr
      · simpa [List.filter_cons, hc, ha] using ih
      · have : addr ≠ a := Ne.symm ha
        simpa [List.filter_cons, Memory.read, hc, ha, this] using ih
    · by_cases ha : c.1 = a
      · have : a ≠ addr := ha ▸ hc
        simp [Memory.read, ha, this]
      · simpa [List.filter_cons, Memory.read, hc, ha] using ih

theorem Memory.read_insert_of_ne (m : Memory) {addr a : Nat} (b : Byte) (h : a ≠ addr) :
    Memory.read (Memory.insert m addr b) a = Memory.read m a := by
  have h' : addr ≠ a := Ne.symm h
  induction m with
  | nil => simp [Memory.insert, Memory.read, h']
  | cons c m ih => simp only [Memory.insert]; split <;> simp [Memory.read, h', ih]

theorem Memory.read_insert_self (m : Memory) (addr : Nat) (b : Byte) (h : ∀ c ∈ m, c.1 ≠ addr) :
    Memory.read (Memory.insert m addr b) addr = b := by
  induction m with
  | nil => simp [Memory.insert, Memory.read]
  | cons c m ih =>
    have hc : c.1 ≠ addr := h c (by simp)
    have ih' := ih fun d hd => h d (by simp [hd])
    simp only [Memory.insert]; split <;> simp [Memory.read, hc, ih']

theorem Memory.ne_of_mem_erase {m : Memory} {addr : Nat} {c : Host.Cell} (h : c ∈ Memory.erase m addr) :
    c ∈ m ∧ c.1 ≠ addr := by
  simpa [Memory.erase] using h

/-- What a byte reads as after a write: the written byte at its address, every other byte as before. -/
theorem Memory.read_write (m : Memory) (addr a : Nat) (b : Byte) :
    Memory.read (Memory.write m addr b) a = if a = addr then b else Memory.read m a := by
  unfold Memory.write
  by_cases ha : a = addr
  · subst a
    split
    · simp [Memory.read_erase, *]
    · simpa using Memory.read_insert_self _ addr b fun c hc => (Memory.ne_of_mem_erase hc).2
  · split
    · simp [Memory.read_erase, ha]
    · simp [Memory.read_insert_of_ne _ b ha, Memory.read_erase, ha]

/-! The canonical form -/

theorem Memory.wf_nil : Memory.wf [] := by simp [Memory.wf]

theorem Memory.wf_erase {m : Memory} (h : Memory.wf m) (addr : Nat) : Memory.wf (Memory.erase m addr) :=
  ⟨h.1.sublist List.filter_sublist, fun c hc => h.2 c (Memory.ne_of_mem_erase hc).1⟩

theorem Memory.mem_insert {m : Memory} {addr : Nat} {b : Byte} {c : Host.Cell} :
    c ∈ Memory.insert m addr b ↔ c = (addr, b) ∨ c ∈ m := by
  induction m with
  | nil => simp [Memory.insert]
  | cons d m ih =>
    simp only [Memory.insert]; split
    · simp
    · simp only [List.mem_cons, ih]; tauto

theorem Memory.wf_insert {m : Memory} {addr : Nat} {b : Byte} (h : Memory.wf m) (ha : addr < Config.memSize)
    (hb : b ≠ Config.memInit) (hn : ∀ c ∈ m, c.1 ≠ addr) : Memory.wf (Memory.insert m addr b) := by
  refine ⟨?_, fun c hc => ?_⟩
  · have hp := h.1
    clear h
    induction m with
    | nil => simp [Memory.insert]
    | cons d m ih =>
      obtain ⟨hd, hm⟩ := List.pairwise_cons.1 hp
      simp only [Memory.insert]
      split
      · refine List.pairwise_cons.2 ⟨fun c hc => ?_, hp⟩
        rcases List.mem_cons.1 hc with rfl | hc
        · assumption
        · have := hd c hc; simp only at *; omega
      · have hda : d.1 ≠ addr := hn d (by simp)
        refine List.pairwise_cons.2 ⟨fun c hc => ?_, ih (fun c hc => hn c (by simp [hc])) hm⟩
        rcases Memory.mem_insert.1 hc with rfl | hc
        · simp only; omega
        · exact hd c hc
  · rcases Memory.mem_insert.1 hc with rfl | hc
    · exact ⟨ha, hb⟩
    · exact h.2 c hc

/-- A write at an address of Memory keeps the canonical form. -/
theorem Memory.wf_write {m : Memory} (h : Memory.wf m) {addr : Nat} (ha : addr < Config.memSize) (b : Byte) :
    Memory.wf (Memory.write m addr b) := by
  unfold Memory.write
  split
  · exact Memory.wf_erase h addr
  · exact Memory.wf_insert (Memory.wf_erase h addr) ha ‹_› fun c hc => (Memory.ne_of_mem_erase hc).2

theorem State.reset_mem_wf : Memory.wf State.reset.mem := Memory.wf_nil

theorem Memory.read_eq_init_of_forall_ne {m : Memory} {a : Nat} (h : ∀ c ∈ m, c.1 ≠ a) :
    Memory.read m a = Config.memInit := by
  induction m with
  | nil => rfl
  | cons c m ih =>
    have hc : c.1 ≠ a := h c (by simp)
    simp [Memory.read, hc, ih fun d hd => h d (by simp [hd])]

/-- Canonical memories that read alike at every address are equal data. -/
theorem Memory.eq_of_read_eq {m n : Memory} (hm : Memory.wf m) (hn : Memory.wf n)
    (h : ∀ a, Memory.read m a = Memory.read n a) : m = n := by
  induction m generalizing n with
  | nil =>
    cases n with
    | nil => rfl
    | cons d n =>
      have := h d.1
      simp only [Memory.read, if_true] at this
      exact absurd this.symm (hn.2 d (by simp)).2
  | cons c m ih =>
    obtain ⟨hc, hm'⟩ := List.pairwise_cons.1 hm.1
    cases n with
    | nil =>
      have := h c.1
      simp only [Memory.read, if_true] at this
      exact absurd this (hm.2 c (by simp)).2
    | cons d n =>
      obtain ⟨hd, hn'⟩ := List.pairwise_cons.1 hn.1
      have hcd : c.1 = d.1 := by
        rcases Nat.lt_trichotomy c.1 d.1 with hlt | heq | hgt
        · have h1 := h c.1
          have h2 : Memory.read (d :: n) c.1 = Config.memInit :=
            Memory.read_eq_init_of_forall_ne fun e he => by
              rcases List.mem_cons.1 he with rfl | he
              · omega
              · have := hd e he; omega
          rw [h2] at h1
          simp only [Memory.read, if_true] at h1
          exact absurd h1 (hm.2 c (by simp)).2
        · exact heq
        · have h1 := h d.1
          have h2 : Memory.read (c :: m) d.1 = Config.memInit :=
            Memory.read_eq_init_of_forall_ne fun e he => by
              rcases List.mem_cons.1 he with rfl | he
              · omega
              · have := hc e he; omega
          rw [h2] at h1
          simp only [Memory.read, if_true] at h1
          exact absurd h1.symm (hn.2 d (by simp)).2
      have hb : c.2 = d.2 := by simpa [Memory.read, hcd] using h c.1
      have htail : ∀ a, Memory.read m a = Memory.read n a := by
        intro a
        by_cases ha : c.1 = a
        · rw [Memory.read_eq_init_of_forall_ne fun e he => by have := hc e he; omega,
            Memory.read_eq_init_of_forall_ne fun e he => by have := hd e he; omega]
        · have := h a
          simpa [Memory.read, ha, hcd ▸ ha] using this
      rw [show c = d from Prod.ext hcd hb,
        ih ⟨hm', fun e he => hm.2 e (by simp [he])⟩ ⟨hn', fun e he => hn.2 e (by simp [he])⟩ htail]

/-! Display -/

theorem Display.get_put (d : Display) (x x' : Fin Config.dispW) (y y' : Fin Config.dispH) (b : Bool) :
    Display.get (Display.put d x y b) x' y' = if x' = x ∧ y' = y then b else Display.get d x' y' := by
  unfold Display.get Display.put
  by_cases hy : y' = y
  · subst y'
    by_cases hx : x' = x
    · subst x'; simp
    · have : x.val ≠ x'.val := fun e => hx (Fin.ext e.symm)
      simp [this, hx]
  · have : y.val ≠ y'.val := fun e => hy (Fin.ext e.symm)
    simp [this, hy]

/-- Displays with the same pixels are the same display. -/
theorem Display.ext_get {d e : Display} (h : ∀ x y, Display.get d x y = Display.get e x y) : d = e :=
  Vector.ext fun y hy => Vector.ext fun x hx => h ⟨x, hx⟩ ⟨y, hy⟩

@[simp] theorem Display.get_dispClear (s : State) (x : Fin Config.dispW) (y : Fin Config.dispH) :
    Display.get (dispClear s).display x y = false := by
  simp [Display.get]

end Sys2Proof.Machine
end

