-- ==== Sys2Proof/Laws/Ops.lean ====
section
/-! SUPPORT. One lemma for each shared operation that says everything it can do; the provers cite these instead of unfolding
the operation. -/

namespace Sys2Proof.Machine

/-! Outcomes -/

theorem toOutcome_eq_next {r : Except Fault State} {t : State} : toOutcome r = .next t ↔ r = .ok t := by
  cases r <;> simp [toOutcome]

theorem finish_eq_next {r : Except Fault State} {t : State} : finish r = .next t ↔ ∃ u, r = .ok u ∧ advance u = t := by
  cases r <;> simp [finish, toOutcome, Except.map]

theorem finish_eq_fault {r : Except Fault State} {f : Fault} : finish r = .fault f ↔ r = .error f := by
  cases r <;> simp [finish, toOutcome, Except.map]

theorem finish_ne_refused {r : Except Fault State} {q : Refusal} : finish r ≠ .refused q := by
  cases r <;> simp [finish, toOutcome, Except.map]

theorem finish_ok (s : State) : finish (.ok s) = .next (advance s) := rfl

theorem finish_error (f : Fault) : finish (.error f) = .fault f := rfl

/-- A bind that answers: its first half answered and its second half did. -/
theorem bind_eq_ok {α β : Type} {r : Except Fault α} {k : α → Except Fault β} {b : β} :
    (r >>= k) = .ok b ↔ ∃ a, r = .ok a ∧ k a = .ok b := by
  cases r <;> simp [bind, Except.bind]

/-- A bind that faults: its first half faulted, or it answered and the second half faulted. -/
theorem bind_eq_error {α β : Type} {r : Except Fault α} {k : α → Except Fault β} {f : Fault} :
    (r >>= k) = .error f ↔ r = .error f ∨ ∃ a, r = .ok a ∧ k a = .error f := by
  cases r <;> simp [bind, Except.bind]

theorem ok_bind {α β : Type} (a : α) (k : α → Except Fault β) : ((.ok a : Except Fault α) >>= k) = k a := rfl

theorem error_bind {α β : Type} (f : Fault) (k : α → Except Fault β) : ((.error f : Except Fault α) >>= k) = .error f := rfl

/-! Memory -/

/-- An access in range does not see the policy. -/
theorem readByteUnder_of_lt (m : MemOob) {addr : Nat} (h : addr < Config.memSize) (s : State) :
    readByteUnder m addr s = .ok (Memory.read s.mem addr) := if_pos h

theorem readByteUnder_of_le (m : MemOob) {addr : Nat} (h : Config.memSize ≤ addr) (s : State) :
    readByteUnder m addr s =
      match m with
      | .fault => .error (.memOutOfRange addr s.pc)
      | .answers p => .ok (p.readByte addr s.mem) := if_neg (Nat.not_lt.2 h)

theorem writeByteUnder_of_lt (m : MemOob) {addr : Nat} (h : addr < Config.memSize) (b : Byte) (s : State) :
    writeByteUnder m addr b s = .ok (setMem (Memory.write s.mem addr b) s) := if_pos h

theorem writeByteUnder_of_le (m : MemOob) {addr : Nat} (h : Config.memSize ≤ addr) (b : Byte) (s : State) :
    writeByteUnder m addr b s =
      match m with
      | .fault => .error (.memOutOfRange addr s.pc)
      | .answers p => .ok (setMem (p.writeByte addr b s.mem) s) := if_neg (Nat.not_lt.2 h)

theorem readWordUnder_of_lt (m : MemOob) {addr : Nat} (h : addr + 1 < Config.memSize) (s : State) :
    readWordUnder m addr s = .ok (joinWord (Memory.read s.mem addr) (Memory.read s.mem (addr + 1))) := if_pos h

theorem readWordUnder_of_le (m : MemOob) {addr : Nat} (h : Config.memSize ≤ addr + 1) (s : State) :
    readWordUnder m addr s =
      match m with
      | .fault => .error (.memOutOfRange (max addr Config.memSize) s.pc)
      | .answers p => .ok (p.readWord addr s.mem) := if_neg (Nat.not_lt.2 h)

theorem readByte_of_lt {addr : Nat} (h : addr < Config.memSize) (s : State) :
    readByte addr s = .ok (Memory.read s.mem addr) := readByteUnder_of_lt _ h s

theorem readByte_of_le {addr : Nat} (h : Config.memSize ≤ addr) (s : State) :
    readByte addr s = .error (.memOutOfRange addr s.pc) := readByteUnder_of_le .fault h s

theorem readByte_eq_ok {addr : Nat} {s : State} {b : Byte} :
    readByte addr s = .ok b ↔ addr < Config.memSize ∧ Memory.read s.mem addr = b := by
  by_cases h : addr < Config.memSize
  · simp [readByte_of_lt h, h]
  · simp [readByte_of_le (Nat.not_lt.1 h), h]

theorem readByte_eq_error {addr : Nat} {s : State} {f : Fault} :
    readByte addr s = .error f ↔ Config.memSize ≤ addr ∧ f = .memOutOfRange addr s.pc := by
  by_cases h : addr < Config.memSize
  · simp [readByte_of_lt h, h]
  · simp [readByte_of_le (Nat.not_lt.1 h), Nat.not_lt.1 h, eq_comm]

theorem writeByte_of_lt {addr : Nat} (h : addr < Config.memSize) (b : Byte) (s : State) :
    writeByte addr b s = .ok (setMem (Memory.write s.mem addr b) s) := writeByteUnder_of_lt _ h b s

theorem writeByte_of_le {addr : Nat} (h : Config.memSize ≤ addr) (b : Byte) (s : State) :
    writeByte addr b s = .error (.memOutOfRange addr s.pc) := writeByteUnder_of_le .fault h b s

theorem writeByte_eq_ok {addr : Nat} {b : Byte} {s t : State} :
    writeByte addr b s = .ok t ↔ addr < Config.memSize ∧ setMem (Memory.write s.mem addr b) s = t := by
  by_cases h : addr < Config.memSize
  · simp [writeByte_of_lt h, h]
  · simp [writeByte_of_le (Nat.not_lt.1 h), h]

theorem writeByte_eq_error {addr : Nat} {b : Byte} {s : State} {f : Fault} :
    writeByte addr b s = .error f ↔ Config.memSize ≤ addr ∧ f = .memOutOfRange addr s.pc := by
  by_cases h : addr < Config.memSize
  · simp [writeByte_of_lt h, h]
  · simp [writeByte_of_le (Nat.not_lt.1 h), Nat.not_lt.1 h, eq_comm]

/-- Writing a byte keeps the machine's invariant. -/
theorem writeByte_keeps_inv {addr : Nat} {b : Byte} {s t : State} (hs : s.Inv) (h : writeByte addr b s = .ok t) : t.Inv := by
  obtain ⟨ha, rfl⟩ := writeByte_eq_ok.1 h
  exact Memory.wf_write hs ha b

/-- Placing bytes from outside keeps the machine's invariant. -/
theorem placeBytes_keeps_inv (addr : Nat) (bs : List Byte) {s : State} (hs : s.Inv) : (placeBytes addr bs s).Inv := by
  induction bs generalizing addr s with
  | nil => exact hs
  | cons b bs ih =>
    refine ih (addr + 1) ?_
    split
    · exact Memory.wf_write hs ‹_› b
    · exact hs

theorem readWord_of_lt {addr : Nat} (h : addr + 1 < Config.memSize) (s : State) :
    readWord addr s = .ok (joinWord (Memory.read s.mem addr) (Memory.read s.mem (addr + 1))) := readWordUnder_of_lt _ h s

theorem readWord_of_le {addr : Nat} (h : Config.memSize ≤ addr + 1) (s : State) :
    readWord addr s = .error (.memOutOfRange (max addr Config.memSize) s.pc) := readWordUnder_of_le .fault h s

/-- The word at an address whose two bytes are read. -/
theorem readWord_of_bytes {addr : Nat} {s : State} {hi lo : Byte} (h : readByte addr s = .ok hi)
    (h' : readByte (addr + 1) s = .ok lo) : readWord addr s = .ok (joinWord hi lo) := by
  obtain ⟨-, rfl⟩ := readByte_eq_ok.1 h
  obtain ⟨hl, rfl⟩ := readByte_eq_ok.1 h'
  exact readWord_of_lt hl s

theorem joinWord_toNat (hi lo : Byte) : (joinWord hi lo).toNat = hi.toNat * 256 + lo.toNat := by
  have h : lo.toNat < 2 ^ 8 := lo.isLt
  rw [joinWord, BitVec.toNat_append, ← Nat.shiftLeft_add_eq_or_of_lt h, Nat.shiftLeft_eq]

/-! Display -/

/-- An access on the grid does not see the policy. -/
theorem dispGetUnder_of_lt (d : DispOob) {x y : Nat} (hx : x < Config.dispW) (hy : y < Config.dispH) (s : State) :
    dispGetUnder d x y s = .ok (Display.get s.display ⟨x, hx⟩ ⟨y, hy⟩) := dif_pos ⟨hx, hy⟩

theorem dispGetUnder_off_grid (d : DispOob) {x y : Nat} (h : ¬(x < Config.dispW ∧ y < Config.dispH)) (s : State) :
    dispGetUnder d x y s =
      match d with
      | .fault => .error (.dispOutOfRange x y s.pc)
      | .answers p => .ok (p.get x y s.display) := dif_neg h

theorem dispSetUnder_of_lt (d : DispOob) {x y : Nat} (hx : x < Config.dispW) (hy : y < Config.dispH) (b : Bool) (s : State) :
    dispSetUnder d x y b s = .ok (setDisplay (Display.put s.display ⟨x, hx⟩ ⟨y, hy⟩ b) s) := dif_pos ⟨hx, hy⟩

theorem dispSetUnder_off_grid (d : DispOob) {x y : Nat} (h : ¬(x < Config.dispW ∧ y < Config.dispH)) (b : Bool) (s : State) :
    dispSetUnder d x y b s =
      match d with
      | .fault => .error (.dispOutOfRange x y s.pc)
      | .answers p => .ok (setDisplay (p.set x y b s.display) s) := dif_neg h

theorem dispGet_of_lt {x y : Nat} (hx : x < Config.dispW) (hy : y < Config.dispH) (s : State) :
    dispGet x y s = .ok (Display.get s.display ⟨x, hx⟩ ⟨y, hy⟩) := dispGetUnder_of_lt _ hx hy s

theorem dispGet_off_grid {x y : Nat} (h : ¬(x < Config.dispW ∧ y < Config.dispH)) (s : State) :
    dispGet x y s = .error (.dispOutOfRange x y s.pc) := dispGetUnder_off_grid .fault h s

theorem dispSet_of_lt {x y : Nat} (hx : x < Config.dispW) (hy : y < Config.dispH) (b : Bool) (s : State) :
    dispSet x y b s = .ok (setDisplay (Display.put s.display ⟨x, hx⟩ ⟨y, hy⟩ b) s) := dispSetUnder_of_lt _ hx hy b s

theorem dispSet_off_grid {x y : Nat} (h : ¬(x < Config.dispW ∧ y < Config.dispH)) (b : Bool) (s : State) :
    dispSet x y b s = .error (.dispOutOfRange x y s.pc) := dispSetUnder_off_grid .fault h b s

/-! Call stack -/

theorem pushStack_unbounded (a : Word) (s : State) : pushStack none a s = .ok (setStack (a :: s.stack) s) := rfl

theorem popStack_nil {s : State} (h : s.stack = []) : popStack s = none := by
  simp [popStack, h]

theorem popStack_cons {s : State} {a : Word} {rest : List Word} (h : s.stack = a :: rest) :
    popStack s = some (a, setStack rest s) := by
  simp [popStack, h]

/-! Loops -/

/-- A property that every step of a loop keeps holds after the loop. -/
theorem foldlM_keeps {α : Type} {P : State → Prop} {f : State → α → Except Fault State}
    (hf : ∀ s a t, P s → f s a = .ok t → P t) :
    ∀ (l : List α) {s t : State}, P s → l.foldlM f s = .ok t → P t
  | [], s, t, hs, h => by
    have : s = t := by simpa [pure, Except.pure] using h
    exact this ▸ hs
  | a :: l, s, t, hs, h => by
    rw [List.foldlM_cons] at h
    obtain ⟨u, hu, h⟩ := bind_eq_ok.1 h
    exact foldlM_keeps hf l (hf s a u hs hu) h

/-- A loop that faults has a step that faults in a state that keeps what every step keeps. -/
theorem foldlM_fault {α : Type} {P : State → Prop} {Q : Fault → Prop} {f : State → α → Except Fault State}
    (hf : ∀ s a t, P s → f s a = .ok t → P t) (hq : ∀ s a e, P s → f s a = .error e → Q e) :
    ∀ (l : List α) {s : State} {e : Fault}, P s → l.foldlM f s = .error e → Q e
  | [], s, e, _, h => by simp [pure, Except.pure] at h
  | a :: l, s, e, hs, h => by
    rw [List.foldlM_cons] at h
    rcases bind_eq_error.1 h with h | ⟨u, hu, h⟩
    · exact hq s a e hs h
    · exact foldlM_fault hf hq l (hf s a u hs hu) h

theorem foldlM_range_succ {f : State → Nat → Except Fault State} (n : Nat) (s : State) :
    (List.range (n + 1)).foldlM f s = ((List.range n).foldlM f s >>= fun t => f t n) := by
  rw [List.range_succ, List.foldlM_append]
  simp

end Sys2Proof.Machine
end

