-- ==== Sys2Proof/Laws/Boot.lean ====
section
/-! SUPPORT. What the loaders and the reset operation do (spec/70_reset_and_hazards.md), once for every image. -/

namespace Sys2Proof.Machine

/-- An image that fits is loaded: byte `k` of it is at its address, every other byte and everything that is not Memory is as
it was. -/
theorem loadBytes_of_fits :
    ∀ (bs : List Byte) (addr : Nat) (s : State), addr + bs.length ≤ Config.memSize →
      ∃ m, loadBytes addr bs s = .ok (setMem m s) ∧
        (∀ k (h : k < bs.length), Memory.read m (addr + k) = bs[k]) ∧
        SameMemoryOutside addr bs.length s (setMem m s)
  | [], _, s, _ => ⟨s.mem, rfl, fun k h => absurd h (Nat.not_lt_zero k), fun _ _ => rfl⟩
  | b :: bs, addr, s, hfit => by
    rw [List.length_cons] at hfit
    obtain ⟨m, hm, hin, hout⟩ := loadBytes_of_fits bs (addr + 1) (setMem (Memory.write s.mem addr b) s) (by omega)
    refine ⟨m, ?_, fun k h => ?_, fun a ha => ?_⟩
    · unfold loadBytes
      rw [writeByte_of_lt (by omega), ok_bind, hm]
      rfl
    · cases k with
      | zero =>
        refine (hout addr (by omega)).trans ?_
        simp [Memory.read_write]
      | succ k =>
        rw [show addr + (k + 1) = addr + 1 + k by omega]
        exact hin k (by simpa using h)
    · rw [List.length_cons] at ha
      refine (hout a (by omega)).trans ?_
      rw [setMem_mem, Memory.read_write, if_neg (by omega)]

/-- What a loader stores without a fault is what placing the same bytes stores. -/
theorem placeBytes_of_loadBytes :
    ∀ {bs : List Byte} {addr : Nat} {s t : State}, loadBytes addr bs s = .ok t → placeBytes addr bs s = t
  | [], _, _, _, h => by cases h; rfl
  | b :: bs, addr, s, t, h => by
    obtain ⟨u, hu, h⟩ := bind_eq_ok.1 h
    obtain ⟨ha, rfl⟩ := writeByte_eq_ok.1 hu
    unfold placeBytes
    rw [if_pos ha]
    exact placeBytes_of_loadBytes h

/-- Bytes placed from outside where they fit: Memory alone changes, each byte at its address. -/
theorem placeBytes_of_fits :
    ∀ (bs : List Byte) (addr : Nat) (s : State), addr + bs.length ≤ Config.memSize →
      ∃ m, placeBytes addr bs s = setMem m s ∧
        (∀ k (h : k < bs.length), Memory.read m (addr + k) = bs[k]) ∧
        SameMemoryOutside addr bs.length s (setMem m s) := by
  intro bs addr s hfit
  obtain ⟨m, hm, hr⟩ := loadBytes_of_fits bs addr s hfit
  exact ⟨m, placeBytes_of_loadBytes hm, hr⟩

/-- Placing what an unlisted byte reads as changes nothing where nothing is listed. -/
theorem placeBytes_init :
    ∀ (bs : List Byte) (addr : Nat) {s : State}, s.mem = [] → (∀ b ∈ bs, b = Config.memInit) → placeBytes addr bs s = s
  | [], _, _, _, _ => rfl
  | b :: bs, addr, s, hm, h => by
    have hs : setMem (Memory.write s.mem addr b) s = s := by
      rw [h b List.mem_cons_self, Memory.write, if_pos rfl, hm]
      exact congrArg (fun m => setMem m s) (show Memory.erase [] addr = s.mem by rw [hm]; rfl)
    unfold placeBytes
    rw [hs, ite_self]
    exact placeBytes_init bs (addr + 1) hm fun c hc => h c (List.mem_cons_of_mem b hc)

/-- The reset state is the power-up state at the spec's recommended instances (spec/70_reset_and_hazards.md R235). -/
theorem powerUp_recommended : powerUp (fun _ => Config.memInit) (fun _ _ => Config.dispInit) = State.reset := by
  unfold powerUp
  rw [placeBytes_init _ 0 rfl (fun b hb => by obtain ⟨_, -, rfl⟩ := List.mem_map.1 hb; rfl)]
  refine congrArg (fun d => setDisplay d State.reset) (Display.ext_get (e := State.reset.display) fun x y => ?_)
  simp [Display.get, State.reset]

/-- The font table has the size the parameters give it (spec/00_scope.md R5). -/
theorem fontTable_length : fontTable.length = Config.fontGlyphs * Config.fontGlyphBytes := rfl

theorem loadFont_ok (s : State) :
    ∃ m, loadFont s = .ok (setMem m s) ∧
      (∀ k (h : k < fontTable.length), Memory.read m (Config.fontBase + k) = fontTable[k]) ∧
      SameMemoryOutside Config.fontBase fontTable.length s (setMem m s) :=
  loadBytes_of_fits fontTable Config.fontBase s (by decide)

theorem loadRom_of_fits {image : List Byte} (h : image.length ≤ 3584) (s : State) :
    ∃ m, loadRom image s = .ok (setMem m s) ∧
      (∀ k (hk : k < image.length), Memory.read m (0x200 + k) = image[k]) ∧
      SameMemoryOutside 0x200 image.length s (setMem m s) :=
  loadBytes_of_fits image 0x200 s (by have : Config.memSize = 4096 := rfl; omega)

end Sys2Proof.Machine
end

