-- ==== Sys2Proof/Laws/Decode.lean ====
section
/-! SUPPORT. The fields of a packed word are the ones it was packed from, and a word is packed from its fields
(spec/30_encoding.md R81, R82). -/

namespace Sys2Proof

/-- The value of a field of `n` bits whose lowest bit is `lo`. -/
theorem extract_toNat (w : Word) (lo n : Nat) : (w.extractLsb' lo n).toNat = w.toNat / 2 ^ lo % 2 ^ n := by
  rw [BitVec.extractLsb'_toNat, Nat.shiftRight_eq_div_pow]

theorem packXNN_toNat (op : Nibble) (x : RegIdx) (nn : Byte) :
    (packXNN op x nn).toNat = op.toNat * 4096 + x.val * 256 + nn.toNat := by
  have hx : x.val < 2 ^ 4 := x.isLt
  have hn : nn.toNat < 2 ^ 8 := nn.isLt
  simp only [packXNN, BitVec.toNat_append, BitVec.toNat_ofFin]
  rw [← Nat.shiftLeft_add_eq_or_of_lt hx, ← Nat.shiftLeft_add_eq_or_of_lt hn]
  simp only [Nat.shiftLeft_eq]; omega

theorem packXYN_toNat (op : Nibble) (x y : RegIdx) (n : Nibble) :
    (packXYN op x y n).toNat = op.toNat * 4096 + x.val * 256 + y.val * 16 + n.toNat := by
  have hx : x.val < 2 ^ 4 := x.isLt
  have hy : y.val < 2 ^ 4 := y.isLt
  have hn : n.toNat < 2 ^ 4 := n.isLt
  simp only [packXYN, BitVec.toNat_append, BitVec.toNat_ofFin]
  rw [← Nat.shiftLeft_add_eq_or_of_lt hx, ← Nat.shiftLeft_add_eq_or_of_lt hy, ← Nat.shiftLeft_add_eq_or_of_lt hn]
  simp only [Nat.shiftLeft_eq]; omega

theorem packNNN_toNat (op : Nibble) (nnn : Addr12) : (packNNN op nnn).toNat = op.toNat * 4096 + nnn.toNat := by
  have hn : nnn.toNat < 2 ^ 12 := nnn.isLt
  simp only [packNNN, BitVec.toNat_append]
  rw [← Nat.shiftLeft_add_eq_or_of_lt hn]
  simp only [Nat.shiftLeft_eq]

/-! Fields of a packed word -/

@[simp] theorem opField_packXNN (op : Nibble) (x : RegIdx) (nn : Byte) : opField (packXNN op x nn) = op := by
  apply BitVec.eq_of_toNat_eq
  have := op.isLt; have := x.isLt; have := nn.isLt
  rw [opField, extract_toNat, packXNN_toNat]; omega

@[simp] theorem xField_packXNN (op : Nibble) (x : RegIdx) (nn : Byte) : xField (packXNN op x nn) = x := by
  apply Fin.ext
  have := op.isLt; have := x.isLt; have := nn.isLt
  show ((packXNN op x nn).extractLsb' 8 4).toNat = x.val
  rw [extract_toNat, packXNN_toNat]; omega

@[simp] theorem nnField_packXNN (op : Nibble) (x : RegIdx) (nn : Byte) : nnField (packXNN op x nn) = nn := by
  apply BitVec.eq_of_toNat_eq
  have := op.isLt; have := x.isLt; have := nn.isLt
  rw [nnField, extract_toNat, packXNN_toNat]; omega

@[simp] theorem opField_packXYN (op : Nibble) (x y : RegIdx) (n : Nibble) : opField (packXYN op x y n) = op := by
  apply BitVec.eq_of_toNat_eq
  have := op.isLt; have := x.isLt; have := y.isLt; have := n.isLt
  rw [opField, extract_toNat, packXYN_toNat]; omega

@[simp] theorem xField_packXYN (op : Nibble) (x y : RegIdx) (n : Nibble) : xField (packXYN op x y n) = x := by
  apply Fin.ext
  have := op.isLt; have := x.isLt; have := y.isLt; have := n.isLt
  show ((packXYN op x y n).extractLsb' 8 4).toNat = x.val
  rw [extract_toNat, packXYN_toNat]; omega

@[simp] theorem yField_packXYN (op : Nibble) (x y : RegIdx) (n : Nibble) : yField (packXYN op x y n) = y := by
  apply Fin.ext
  have := op.isLt; have := x.isLt; have := y.isLt; have := n.isLt
  show ((packXYN op x y n).extractLsb' 4 4).toNat = y.val
  rw [extract_toNat, packXYN_toNat]; omega

@[simp] theorem nField_packXYN (op : Nibble) (x y : RegIdx) (n : Nibble) : nField (packXYN op x y n) = n := by
  apply BitVec.eq_of_toNat_eq
  have := op.isLt; have := x.isLt; have := y.isLt; have := n.isLt
  rw [nField, extract_toNat, packXYN_toNat]; omega

@[simp] theorem opField_packNNN (op : Nibble) (nnn : Addr12) : opField (packNNN op nnn) = op := by
  apply BitVec.eq_of_toNat_eq
  have := op.isLt; have := nnn.isLt
  rw [opField, extract_toNat, packNNN_toNat]; omega

@[simp] theorem nnnField_packNNN (op : Nibble) (nnn : Addr12) : nnnField (packNNN op nnn) = nnn := by
  apply BitVec.eq_of_toNat_eq
  have := op.isLt; have := nnn.isLt
  rw [nnnField, extract_toNat, packNNN_toNat]; omega

/-! A word is packed from its fields -/

theorem opField_toNat (w : Word) : (opField w).toNat = w.toNat / 4096 := by
  have := w.isLt
  rw [opField, extract_toNat]; omega

theorem xField_val (w : Word) : (xField w).val = w.toNat / 256 % 16 := extract_toNat w 8 4

theorem yField_val (w : Word) : (yField w).val = w.toNat / 16 % 16 := extract_toNat w 4 4

theorem nField_toNat (w : Word) : (nField w).toNat = w.toNat % 16 := by
  rw [nField, extract_toNat]; simp

theorem nnField_toNat (w : Word) : (nnField w).toNat = w.toNat % 256 := by
  rw [nnField, extract_toNat]; simp

theorem nnnField_toNat (w : Word) : (nnnField w).toNat = w.toNat % 4096 := by
  rw [nnnField, extract_toNat]; simp

theorem packXNN_of_fields (w : Word) : packXNN (opField w) (xField w) (nnField w) = w := by
  apply BitVec.eq_of_toNat_eq
  rw [packXNN_toNat, opField_toNat, xField_val, nnField_toNat]; omega

theorem packXYN_of_fields (w : Word) : packXYN (opField w) (xField w) (yField w) (nField w) = w := by
  apply BitVec.eq_of_toNat_eq
  rw [packXYN_toNat, opField_toNat, xField_val, yField_val, nField_toNat]; omega

theorem packNNN_of_fields (w : Word) : packNNN (opField w) (nnnField w) = w := by
  apply BitVec.eq_of_toNat_eq
  rw [packNNN_toNat, opField_toNat, nnnField_toNat]; omega

/-! The masks of the opcode table pick out fields (spec/30_encoding.md R89) -/

theorem and_selector_mask (w : Word) : w &&& 0xF000#16 = packNNN (opField w) 0#12 := by
  apply BitVec.eq_of_getLsbD_eq
  intro i hi
  simp only [packNNN, opField, BitVec.getLsbD_and, BitVec.getLsbD_append, BitVec.getLsbD_extractLsb']
  interval_cases i <;> simp

theorem and_selectors_mask (w : Word) : w &&& 0xF0FF#16 = packXNN (opField w) 0 (nnField w) := by
  apply BitVec.eq_of_getLsbD_eq
  intro i hi
  simp only [packXNN, opField, nnField, BitVec.getLsbD_and, BitVec.getLsbD_append, BitVec.getLsbD_extractLsb']
  interval_cases i <;> simp

theorem and_word_mask (w : Word) : w &&& 0xFFFF#16 = w := BitVec.and_allOnes

/-! Bytes of a word -/

@[simp] theorem joinWord_bytes (w : Word) : joinWord (hiByte w) (loByte w) = w := by
  apply BitVec.eq_of_toNat_eq
  have hlo : (loByte w).toNat < 2 ^ 8 := (loByte w).isLt
  rw [joinWord, BitVec.toNat_append, ← Nat.shiftLeft_add_eq_or_of_lt hlo, Nat.shiftLeft_eq, hiByte, loByte,
    extract_toNat, extract_toNat]
  have := w.isLt
  omega

theorem decode_encodeBytes (i : Instr) (rest : List Byte) :
    decode (encodeBytes i ++ rest) = .ok (decodeWord (encode i), rest) := by
  simp [encodeBytes, decode]

/-! The two selectors that subdivide -/

theorem decodeWord_of_op_0 {w : Word} (h : opField w = 0x0#4) : decodeWord w = decodeGroup0 w := by
  simp only [decodeWord, h]

theorem decodeWord_of_op_F {w : Word} (h : opField w = 0xF#4) : decodeWord w = decodeGroupF w := by
  unfold decodeWord
  rw [h]
  rfl

/-- Every selector is one of the sixteen. -/
theorem nibble_cases (op : Nibble) : op = 0x0#4 ∨ op = 0x1#4 ∨ op = 0x2#4 ∨ op = 0x3#4 ∨ op = 0x4#4 ∨ op = 0x5#4 ∨
    op = 0x6#4 ∨ op = 0x7#4 ∨ op = 0x8#4 ∨ op = 0x9#4 ∨ op = 0xA#4 ∨ op = 0xB#4 ∨ op = 0xC#4 ∨ op = 0xD#4 ∨
    op = 0xE#4 ∨ op = 0xF#4 := by
  revert op; decide

end Sys2Proof
end

