-- ==== Sys2Proof/Laws/Draw.lean ====
section
/-! SUPPORT. What drawing a sprite does (spec/44_display.md R182), in closed form: the pixels a set of cells flips, the
flag, and everything else as before. -/

namespace Sys2Proof.Machine

/-- `t` is `s` with the cells of `cov` flipped and a collision noted where one of them was on. -/
structure Flipped (cov : Nat → Nat → Bool) (s t : State) : Prop where
  i : t.i = s.i
  pc : t.pc = s.pc
  stack : t.stack = s.stack
  mem : t.mem = s.mem
  diags : t.diags = s.diags
  regs : SameRegistersBut flagReg s t
  pixel : ∀ x y, Display.get t.display x y = (Display.get s.display x y ^^ cov x.val y.val)
  hit : (∃ (x : Fin Config.dispW) (y : Fin Config.dispH), cov x.val y.val = true ∧ Display.get s.display x y = true) →
    getV flagReg t = 1#8
  miss : (¬∃ (x : Fin Config.dispW) (y : Fin Config.dispH), cov x.val y.val = true ∧ Display.get s.display x y = true) →
    getV flagReg t = getV flagReg s

theorem Flipped.refl (s : State) : Flipped (fun _ _ => false) s s :=
  ⟨rfl, rfl, rfl, rfl, rfl, fun _ _ => rfl, fun x y => by simp, fun ⟨_, _, h, _⟩ => by simp at h, fun _ => rfl⟩

theorem Flipped.congr {cov cov' : Nat → Nat → Bool} {s t : State} (h : Flipped cov s t)
    (e : ∀ x y, cov x y = cov' x y) : Flipped cov' s t := by
  have : cov = cov' := funext fun x => funext fun y => e x y
  exact this ▸ h

/-- Two flips of disjoint sets of cells are one flip of their union. -/
theorem Flipped.trans {cov cov' : Nat → Nat → Bool} {s t u : State} (h : Flipped cov s t) (h' : Flipped cov' t u)
    (disj : ∀ x y, cov x y = true → cov' x y = false) : Flipped (fun x y => cov x y || cov' x y) s u := by
  refine ⟨h'.i.trans h.i, h'.pc.trans h.pc, h'.stack.trans h.stack, h'.mem.trans h.mem, h'.diags.trans h.diags,
    fun r hr => (h'.regs r hr).trans (h.regs r hr), fun x y => ?_, ?_, ?_⟩
  · rw [h'.pixel, h.pixel]
    have := disj x.val y.val
    cases h1 : cov x.val y.val <;> cases h2 : cov' x.val y.val <;> simp_all
  · rintro ⟨x, y, hc, hs⟩
    by_cases hd : ∃ (x : Fin Config.dispW) (y : Fin Config.dispH), cov' x.val y.val = true ∧ Display.get t.display x y = true
    · exact h'.hit hd
    · rw [h'.miss hd]
      refine h.hit ⟨x, y, ?_, hs⟩
      by_contra hn
      refine hd ⟨x, y, ?_, ?_⟩
      · simpa [hn] using hc
      · rw [h.pixel, hs]; simpa using hn
  · intro hn
    rw [h'.miss, h.miss]
    · rintro ⟨x, y, hc, hs⟩; exact hn ⟨x, y, by simp [hc], hs⟩
    · rintro ⟨x, y, hc, ht⟩
      rw [h.pixel] at ht
      refine hn ⟨x, y, by simp [hc], ?_⟩
      cases h1 : cov x.val y.val
      · simpa [h1] using ht
      · simp [disj _ _ h1] at hc

/-- One set bit on the grid flips its pixel. -/
theorem drawBit_of_set (d : DispOob) {px py r : Nat} {b : Byte} {c : Nat} (hb : spriteBit b c = true) (hx : px + c < Config.dispW)
    (hy : py + r < Config.dispH) (s : State) :
    ∃ t, drawBit d px py r b s c = .ok t ∧ Flipped (fun x y => decide (x = px + c ∧ y = py + r)) s t := by
  refine ⟨noteCollision (Display.get s.display ⟨px + c, hx⟩ ⟨py + r, hy⟩)
    (setDisplay (Display.put s.display ⟨px + c, hx⟩ ⟨py + r, hy⟩
      (!Display.get s.display ⟨px + c, hx⟩ ⟨py + r, hy⟩)) s), ?_, ?_⟩
  · unfold drawBit
    rw [if_pos hb, dispGetUnder_of_lt d hx hy, ok_bind, dispSetUnder_of_lt d hx hy, ok_bind]
    rfl
  · refine ⟨by simp, by simp, by simp, by simp, by simp, fun q hq => ?_, fun x y => ?_, ?_, ?_⟩
    · cases h : Display.get s.display ⟨px + c, hx⟩ ⟨py + r, hy⟩
      · rfl
      · exact getV_setV_of_ne hq _ _
    · rw [noteCollision_display]
      simp only [setDisplay_display, Display.get_put, Fin.ext_iff]
      by_cases e : x.val = px + c ∧ y.val = py + r
      · have hxe : x = ⟨px + c, hx⟩ := Fin.ext e.1
        have hye : y = ⟨py + r, hy⟩ := Fin.ext e.2
        simp [hxe, hye]
      · simp [e]
    · rintro ⟨x, y, hc, hs⟩
      obtain ⟨e1, e2⟩ := of_decide_eq_true hc
      have hxe : x = ⟨px + c, hx⟩ := Fin.ext e1
      have hye : y = ⟨py + r, hy⟩ := Fin.ext e2
      rw [← hxe, ← hye, hs]
      exact getV_setV_self _ _ _
    · intro hn
      have : Display.get s.display ⟨px + c, hx⟩ ⟨py + r, hy⟩ = false := by
        by_contra h
        exact hn ⟨⟨px + c, hx⟩, ⟨py + r, hy⟩, by simp, by simpa using h⟩
      rw [this]
      rfl

theorem drawBit_of_clear (d : DispOob) {px py r : Nat} {b : Byte} {c : Nat} (hb : spriteBit b c = false) (s : State) :
    drawBit d px py r b s c = .ok s := by
  unfold drawBit
  rw [if_neg (by simp [hb])]

/-- A set bit off the grid faults with its coordinates. -/
theorem drawBit_off_grid {px py r : Nat} {b : Byte} {c : Nat} (hb : spriteBit b c = true)
    (h : ¬(px + c < Config.dispW ∧ py + r < Config.dispH)) (s : State) :
    drawBit .fault px py r b s c = .error (.dispOutOfRange (px + c) (py + r) s.pc) := by
  unfold drawBit
  rw [if_pos hb, dispGetUnder_off_grid .fault h, error_bind]

/-- The first `k` bits of a row, all set ones on the grid. -/
theorem drawBits_first (d : DispOob) {px py r : Nat} {b : Byte} (s : State) :
    ∀ k : Nat, (∀ c, c < k → spriteBit b c = true → px + c < Config.dispW ∧ py + r < Config.dispH) →
      ∃ t, (List.range k).foldlM (drawBit d px py r b) s = .ok t ∧
        Flipped (fun x y => decide (px ≤ x ∧ x < px + k ∧ y = py + r) && spriteBit b (x - px)) s t
  | 0, _ => ⟨s, rfl, (Flipped.refl s).congr fun x y => by
      rw [decide_eq_false (by omega)]; rfl⟩
  | k + 1, h => by
    obtain ⟨t, ht, hf⟩ := drawBits_first d s k fun c hc => h c (by omega)
    rw [foldlM_range_succ, ht, ok_bind]
    cases hb : spriteBit b k
    · refine ⟨t, drawBit_of_clear d hb t, hf.congr fun x y => ?_⟩
      by_cases e : x = px + k
      · subst x; simp [hb]
      · congr 1; apply decide_eq_decide.2; omega
    · obtain ⟨hx, hy⟩ := h k (by omega) hb
      obtain ⟨u, hu, hf'⟩ := drawBit_of_set d hb hx hy t
      refine ⟨u, hu, (hf.trans hf' fun x y hc => ?_).congr fun x y => ?_⟩
      · have := of_decide_eq_true (Bool.and_eq_true_iff.1 hc).1
        exact decide_eq_false (by omega)
      · by_cases e : x = px + k
        · subst x; simp [hb]
        · rw [decide_eq_false (p := x = px + k ∧ y = py + r) (by omega), Bool.or_false]
          congr 1; apply decide_eq_decide.2; omega

/-- The first `n` rows of a sprite that fits. -/
theorem drawRows_first (p : Params) {px py : Nat} (s : State) :
    ∀ n : Nat, SpriteFits s px py n →
      ∃ t, (List.range n).foldlM (drawRow p px py) s = .ok t ∧ Flipped (spriteCovers s px py n) s t
  | 0, _ => ⟨s, rfl, (Flipped.refl s).congr fun x y => by
      unfold spriteCovers; rw [decide_eq_false (by omega)]; rfl⟩
  | n + 1, h => by
    obtain ⟨t, ht, hf⟩ := drawRows_first p s n fun r hr => h r (by omega)
    obtain ⟨hmem, hbits⟩ := h n (by omega)
    have haddr : indexAddr t n = indexAddr s n := by simp only [indexAddr, hf.i]
    obtain ⟨u, hu, hf'⟩ := drawBits_first p.dispOob (px := px) (py := py) (r := n) (b := spriteRow s n) t 8 hbits
    refine ⟨u, ?_, (hf.trans hf' fun x y hc => ?_).congr fun x y => ?_⟩
    · rw [foldlM_range_succ, ht, ok_bind]
      unfold drawRow
      rw [haddr, readByteUnder_of_lt p.memOob hmem, ok_bind, hf.mem]
      exact hu
    · have := of_decide_eq_true (Bool.and_eq_true_iff.1 hc).1
      rw [decide_eq_false (by omega), Bool.false_and]
    · unfold spriteCovers
      by_cases e : y = py + n
      · subst y
        rw [decide_eq_false (by omega), Bool.false_and, Bool.false_or, Nat.add_sub_cancel_left]
        congr 1; apply decide_eq_decide.2; omega
      · rw [decide_eq_false (p := px ≤ x ∧ x < px + 8 ∧ y = py + n) (by omega), Bool.false_and, Bool.or_false]
        congr 1; apply decide_eq_decide.2; omega

/-- A sprite that fits is drawn: its cells are flipped from the state in which `VF` has been reset. -/
theorem drawSprite_of_fits (p : Params) {px py n : Nat} {s : State} (h : SpriteFits s px py n) :
    ∃ t, drawSprite p px py n s = .ok t ∧ Flipped (spriteCovers s px py n) (setFlag 0#8 s) t :=
  drawRows_first p (setFlag 0#8 s) n h

/-- What a bit's drawing keeps, whatever the bit. -/
theorem drawBit_keeps {px py r : Nat} {b : Byte} {s t : State} {c : Nat} (h : drawBit .fault px py r b s c = .ok t) :
    t.i = s.i ∧ t.pc = s.pc ∧ t.mem = s.mem := by
  cases hb : spriteBit b c
  · rw [drawBit_of_clear .fault hb] at h; cases h; exact ⟨rfl, rfl, rfl⟩
  · by_cases hg : px + c < Config.dispW ∧ py + r < Config.dispH
    · obtain ⟨u, hu, hf⟩ := drawBit_of_set .fault hb hg.1 hg.2 s
      rw [hu] at h; cases h; exact ⟨hf.i, hf.pc, hf.mem⟩
    · rw [drawBit_off_grid hb hg] at h; cases h

/-- A row's bits can only be drawn when each set one is on the grid. -/
theorem drawBits_ok {px py r : Nat} {b : Byte} {s : State} :
    ∀ (k : Nat) {t : State}, (List.range k).foldlM (drawBit .fault px py r b) s = .ok t →
      ∀ c, c < k → spriteBit b c = true → px + c < Config.dispW ∧ py + r < Config.dispH
  | 0, _, _, c, hc, _ => absurd hc (by omega)
  | k + 1, t, h, c, hc, hb => by
    rw [foldlM_range_succ] at h
    obtain ⟨u, hu, h⟩ := bind_eq_ok.1 h
    by_cases e : c = k
    · subst c
      by_contra hg
      rw [drawBit_off_grid hb hg] at h; cases h
    · exact drawBits_ok k hu c (by omega) hb

/-- A row that is drawn: its byte is in Memory, each set bit is on the grid, and the drawing keeps `I`, `pc` and Memory. -/
theorem drawRow_ok {px py : Nat} {s t : State} {r : Nat} (h : drawRow Params.chosen px py s r = .ok t) :
    (indexAddr s r < Config.memSize ∧
      ∀ c, c < 8 → spriteBit (spriteRow s r) c = true → px + c < Config.dispW ∧ py + r < Config.dispH) ∧
    t.i = s.i ∧ t.pc = s.pc ∧ t.mem = s.mem := by
  obtain ⟨b, hb, h⟩ := bind_eq_ok.1 h
  obtain ⟨ha, rfl⟩ := readByte_eq_ok.1 hb
  refine ⟨⟨ha, drawBits_ok 8 h⟩, ?_⟩
  refine foldlM_keeps (P := fun u => u.i = s.i ∧ u.pc = s.pc ∧ u.mem = s.mem) (fun u c w hu hw => ?_) _ ⟨rfl, rfl, rfl⟩ h
  obtain ⟨h1, h2, h3⟩ := drawBit_keeps hw
  exact ⟨h1.trans hu.1, h2.trans hu.2.1, h3.trans hu.2.2⟩

/-- Only a sprite that fits is drawn. -/
theorem drawRows_ok {px py : Nat} {s : State} :
    ∀ (n : Nat) {t : State}, (List.range n).foldlM (drawRow Params.chosen px py) s = .ok t →
      SpriteFits s px py n ∧ t.i = s.i ∧ t.pc = s.pc ∧ t.mem = s.mem
  | 0, t, h => by
    cases h
    exact ⟨fun r hr => absurd hr (by omega), rfl, rfl, rfl⟩
  | n + 1, t, h => by
    rw [foldlM_range_succ] at h
    obtain ⟨u, hu, h⟩ := bind_eq_ok.1 h
    obtain ⟨hfit, hi, hpc, hm⟩ := drawRows_ok n hu
    obtain ⟨⟨ha, hbits⟩, hi', hpc', hm'⟩ := drawRow_ok h
    refine ⟨fun r hr => ?_, hi'.trans hi, hpc'.trans hpc, hm'.trans hm⟩
    by_cases e : r = n
    · subst r
      have hrow : spriteRow u n = spriteRow s n := by simp only [spriteRow, indexAddr, hi, hm]
      rw [hrow] at hbits
      exact ⟨by simpa only [indexAddr, hi] using ha, hbits⟩
    · exact hfit r (by omega)

theorem drawSprite_ok {px py n : Nat} {s t : State} (h : drawSprite Params.chosen px py n s = .ok t) :
    SpriteFits s px py n ∧ Flipped (spriteCovers s px py n) (setFlag 0#8 s) t := by
  have hfit : SpriteFits s px py n := (drawRows_ok n h).1
  obtain ⟨u, hu, hf⟩ := drawSprite_of_fits Params.chosen hfit
  rw [hu] at h
  cases h
  exact ⟨hfit, hf⟩

/-- A sprite that cannot be drawn stops on an access that is in fact out of range. -/
theorem drawSprite_error {px py n : Nat} {s : State} {f : Fault} (h : drawSprite Params.chosen px py n s = .error f) :
    OutOfRangeFault s.pc f := by
  refine foldlM_fault (P := fun u => u.pc = s.pc) (Q := OutOfRangeFault s.pc) (fun u r t hu ht => ?_)
    (fun u r e hu he => ?_) _ (s := setFlag 0#8 s) rfl h
  · exact ((drawRow_ok ht).2.2.1).trans hu
  · rcases bind_eq_error.1 he with he | ⟨b, -, he⟩
    · obtain ⟨ha, rfl⟩ := readByte_eq_error.1 he
      exact .inl ⟨_, by rw [hu], ha⟩
    · refine foldlM_fault (P := fun u => u.pc = s.pc) (Q := OutOfRangeFault s.pc) (fun w c t hw ht => ?_)
        (fun w c e hw he => ?_) _ hu he
      · exact ((drawBit_keeps ht).2.1).trans hw
      · cases hb : spriteBit b c
        · rw [drawBit_of_clear .fault hb] at he; cases he
        · by_cases hg : px + c < Config.dispW ∧ py + r < Config.dispH
          · obtain ⟨t, ht, -⟩ := drawBit_of_set .fault hb hg.1 hg.2 w
            rw [ht] at he; cases he
          · rw [drawBit_off_grid hb hg] at he; cases he
            exact .inr ⟨_, _, by rw [hw], by omega⟩

end Sys2Proof.Machine
end

