-- ==== Sys2Proof/Laws/MemoryAddress.lean ====
section
/-! SUPPORT. What the loops of the memory-address instructions do (spec/43_memory_address.md): the state after each, or the
fault, in closed form. -/

namespace Sys2Proof.Machine

theorem ofNat_val_of_lt {k : Nat} (h : k < 16) : (Fin.ofNat 16 k).val = k := Nat.mod_eq_of_lt h

theorem toNat_add_one {a : Word} (h : a.toNat < Config.memSize) : (a + 1#16).toNat = a.toNat + 1 := by
  have : Config.memSize = 4096 := rfl
  rw [BitVec.toNat_add]
  simp only [BitVec.toNat_ofNat]
  omega

/-! Dump -/

theorem dumpReg_of_lt (m : MemOob) {s : State} (h : s.i.toNat < Config.memSize) (r : RegIdx) :
    dumpReg m s r = .ok (setI (s.i + 1#16) (setMem (Memory.write s.mem s.i.toNat (getV r s)) s)) := by
  simp only [dumpReg, indexAddr, Nat.add_zero]
  rw [writeByteUnder_of_lt m h]
  rfl

theorem dumpReg_of_le {s : State} (h : Config.memSize ≤ s.i.toNat) (r : RegIdx) :
    dumpReg .fault s r = .error (.memOutOfRange s.i.toNat s.pc) := by
  simp only [dumpReg, indexAddr, Nat.add_zero]
  rw [writeByteUnder_of_le .fault h]
  rfl

theorem dumpReg_keeps_inv (s : State) (r : RegIdx) (t : State) (hs : s.Inv) (h : dumpReg .fault s r = .ok t) : t.Inv := by
  obtain ⟨u, hu, h⟩ := bind_eq_ok.1 h
  cases h
  exact (writeByte_keeps_inv hs hu : u.Inv)

/-- Dumping the first `k` registers where they fit: the bytes, the index register, and everything else as before. -/
theorem dump_first (m : MemOob) {s : State} :
    ∀ (k : Nat), k ≤ 16 → s.i.toNat + k ≤ Config.memSize →
      ∃ t, ((List.range k).map (Fin.ofNat 16)).foldlM (dumpReg m) s = .ok t ∧
        t.v = s.v ∧ t.pc = s.pc ∧ t.stack = s.stack ∧ t.display = s.display ∧ t.diags = s.diags ∧
        t.i.toNat = s.i.toNat + k ∧
        (∀ j, j < k → Memory.read t.mem (s.i.toNat + j) = getV (Fin.ofNat 16 j) s) ∧
        SameMemoryOutside s.i.toNat k s t
  | 0, _, _ => ⟨s, by simp [pure, Except.pure], rfl, rfl, rfl, rfl, rfl, rfl, by simp, fun _ _ => rfl⟩
  | k + 1, hk, h => by
    obtain ⟨t, ht, hv, hpc, hst, hd, hg, hi, hb', ho⟩ := dump_first m (s := s) k (by omega) (by omega)
    have hlt : t.i.toNat < Config.memSize := by omega
    refine ⟨setI (t.i + 1#16) (setMem (Memory.write t.mem t.i.toNat (getV (Fin.ofNat 16 k) t)) t), ?_,
      hv, hpc, hst, hd, hg, ?_, fun j hj => ?_, fun b hb => ?_⟩
    · rw [List.range_succ, List.map_append, List.foldlM_append, ht, ok_bind, List.map_singleton, List.foldlM_cons,
        dumpReg_of_lt m hlt, ok_bind]
      rfl
    · simp only [setI_i, toNat_add_one hlt, hi]; omega
    · simp only [setI_mem, setMem_mem, Memory.read_write, hi]
      by_cases hjk : j = k
      · subst j; simp [getV_eq_of_v hv]
      · rw [if_neg (by omega)]; exact hb' j (by omega)
    · simp only [setI_mem, setMem_mem, Memory.read_write, hi]
      rw [if_neg (by omega)]; exact ho b (by omega)

/-- Dumping the first `k` registers where they do not fit faults at the first address past the end of Memory. -/
theorem dump_first_fault {s : State} :
    ∀ (k : Nat), k ≤ 16 → 0 < k → Config.memSize < s.i.toNat + k →
      ((List.range k).map (Fin.ofNat 16)).foldlM (dumpReg .fault) s =
        .error (.memOutOfRange (max s.i.toNat Config.memSize) s.pc)
  | k + 1, hk, _, h => by
    rw [List.range_succ, List.map_append, List.foldlM_append]
    by_cases hfit : s.i.toNat + k ≤ Config.memSize
    · obtain ⟨t, ht, -, hpc, -, -, -, hi, -⟩ := dump_first .fault (s := s) k (by omega) hfit
      rw [ht, ok_bind, List.map_singleton, List.foldlM_cons, dumpReg_of_le (by omega), error_bind, hi, hpc,
        show max s.i.toNat Config.memSize = s.i.toNat + k by omega]
    · rcases Nat.eq_zero_or_pos k with rfl | hpos
      · rw [show (List.range 0).map (Fin.ofNat 16) = [] from rfl, List.foldlM_nil]
        simp only [pure, Except.pure]
        rw [ok_bind, List.map_singleton, List.foldlM_cons, dumpReg_of_le (by omega), error_bind,
          show max s.i.toNat Config.memSize = s.i.toNat by omega]
      · rw [dump_first_fault k (by omega) hpos (by omega), error_bind]

/-! Restore -/

theorem restoreReg_of_lt (m : MemOob) {s : State} (h : s.i.toNat < Config.memSize) (r : RegIdx) :
    restoreReg m s r = .ok (setI (s.i + 1#16) (setV r (Memory.read s.mem s.i.toNat) s)) := by
  simp only [restoreReg, indexAddr, Nat.add_zero]
  rw [readByteUnder_of_lt m h]
  rfl

theorem restoreReg_of_le {s : State} (h : Config.memSize ≤ s.i.toNat) (r : RegIdx) :
    restoreReg .fault s r = .error (.memOutOfRange s.i.toNat s.pc) := by
  simp only [restoreReg, indexAddr, Nat.add_zero]
  rw [readByteUnder_of_le .fault h]
  rfl

theorem restoreReg_keeps_mem (m : MemOob) (s : State) (r : RegIdx) (t : State) (h : restoreReg m s r = .ok t) : t.mem = s.mem := by
  obtain ⟨b, -, h⟩ := bind_eq_ok.1 h
  cases h
  rfl

/-- Restoring the first `k` registers where they fit: the registers, the index register, everything else as before. -/
theorem restore_first (m : MemOob) {s : State} :
    ∀ (k : Nat), k ≤ 16 → s.i.toNat + k ≤ Config.memSize →
      ∃ t, ((List.range k).map (Fin.ofNat 16)).foldlM (restoreReg m) s = .ok t ∧
        t.mem = s.mem ∧ t.pc = s.pc ∧ t.stack = s.stack ∧ t.display = s.display ∧ t.diags = s.diags ∧
        t.i.toNat = s.i.toNat + k ∧
        (∀ r : RegIdx, r.val < k → getV r t = Memory.read s.mem (s.i.toNat + r.val)) ∧
        (∀ r : RegIdx, k ≤ r.val → getV r t = getV r s)
  | 0, _, _ => ⟨s, by simp [pure, Except.pure], rfl, rfl, rfl, rfl, rfl, rfl, by simp, fun _ _ => rfl⟩
  | k + 1, hk, h => by
    obtain ⟨t, ht, hm, hpc, hst, hd, hg, hi, hin, hout⟩ := restore_first m (s := s) k (by omega) (by omega)
    have hlt : t.i.toNat < Config.memSize := by omega
    have hkv := ofNat_val_of_lt (show k < 16 by omega)
    refine ⟨setI (t.i + 1#16) (setV (Fin.ofNat 16 k) (Memory.read t.mem t.i.toNat) t), ?_,
      hm, hpc, hst, hd, hg, ?_, fun r hr => ?_, fun r hr => ?_⟩
    · rw [List.range_succ, List.map_append, List.foldlM_append, ht, ok_bind, List.map_singleton, List.foldlM_cons,
        restoreReg_of_lt m hlt, ok_bind]
      rfl
    · simp only [setI_i, toNat_add_one hlt, hi]; omega
    · rw [getV_setI, getV_setV]
      by_cases hrk : r.val = k
      · rw [if_pos (Fin.ext (hrk.trans hkv.symm)), hm, hi, hrk]
      · rw [if_neg fun e => hrk (by rw [e]; exact hkv)]; exact hin r (by omega)
    · rw [getV_setI, getV_setV, if_neg fun e => absurd (e ▸ hkv) (by omega)]
      exact hout r (by omega)

/-- Restoring the first `k` registers where they do not fit faults at the first address past the end of Memory. -/
theorem restore_first_fault {s : State} :
    ∀ (k : Nat), k ≤ 16 → 0 < k → Config.memSize < s.i.toNat + k →
      ((List.range k).map (Fin.ofNat 16)).foldlM (restoreReg .fault) s =
        .error (.memOutOfRange (max s.i.toNat Config.memSize) s.pc)
  | k + 1, hk, _, h => by
    rw [List.range_succ, List.map_append, List.foldlM_append]
    by_cases hfit : s.i.toNat + k ≤ Config.memSize
    · obtain ⟨t, ht, -, hpc, -, -, -, hi, -⟩ := restore_first .fault (s := s) k (by omega) hfit
      rw [ht, ok_bind, List.map_singleton, List.foldlM_cons, restoreReg_of_le (by omega), error_bind, hi, hpc,
        show max s.i.toNat Config.memSize = s.i.toNat + k by omega]
    · rcases Nat.eq_zero_or_pos k with rfl | hpos
      · rw [show (List.range 0).map (Fin.ofNat 16) = [] from rfl, List.foldlM_nil]
        simp only [pure, Except.pure]
        rw [ok_bind, List.map_singleton, List.foldlM_cons, restoreReg_of_le (by omega), error_bind,
          show max s.i.toNat Config.memSize = s.i.toNat by omega]
      · rw [restore_first_fault k (by omega) hpos (by omega), error_bind]

/-! BCD -/

/-- Storing the three digits where they fit: one memory, everything else as before. -/
theorem storeDigits_of_lt (m : MemOob) {s : State} (t : Byte) (h : s.i.toNat + 2 < Config.memSize) :
    storeDigits m t s = .ok (setMem
      (Memory.write (Memory.write (Memory.write s.mem s.i.toNat (hundreds t)) (s.i.toNat + 1) (tens t))
        (s.i.toNat + 2) (ones t)) s) := by
  unfold storeDigits
  rw [writeByteUnder_of_lt m (by simp only [indexAddr]; omega), ok_bind, writeByteUnder_of_lt m (by simp only [indexAddr]; omega),
    ok_bind, writeByteUnder_of_lt m (by simp only [indexAddr]; omega)]
  rfl

theorem storeDigits_keeps_inv {t : Byte} {s u : State} (hs : s.Inv) (h : storeDigits .fault t s = .ok u) : u.Inv := by
  obtain ⟨s₁, h₁, h⟩ := bind_eq_ok.1 h
  obtain ⟨s₂, h₂, h⟩ := bind_eq_ok.1 h
  exact writeByte_keeps_inv (writeByte_keeps_inv (writeByte_keeps_inv hs h₁) h₂) h

theorem hundreds_toNat (b : Byte) : (hundreds b).toNat = b.toNat / 100 := by
  have := b.isLt
  simp only [hundreds, BitVec.toNat_ofNat]; omega

theorem tens_toNat (b : Byte) : (tens b).toNat = b.toNat / 10 % 10 := by
  simp only [tens, BitVec.toNat_ofNat]; omega

theorem ones_toNat (b : Byte) : (ones b).toNat = b.toNat % 10 := by
  simp only [ones, BitVec.toNat_ofNat]; omega

theorem glyphAddr_toNat (b : Byte) : (glyphAddr b).toNat = 0x50 + b.toNat * 5 := by
  have := b.isLt
  have h1 : Config.fontBase = 0x50 := rfl
  have h2 : Config.fontGlyphBytes = 5 := rfl
  simp only [glyphAddr, BitVec.toNat_ofNat, h1, h2]; omega

theorem indexSum_toNat (i : Word) (b : Byte) : (indexSum i b).toNat = (i.toNat + b.toNat) % 65536 := by
  have := b.isLt
  simp only [indexSum, BitVec.toNat_add, BitVec.toNat_setWidth]; omega

theorem zext16_toNat (nnn : Addr12) : (zext16 nnn).toNat = nnn.toNat := by
  have := nnn.isLt
  simp only [zext16, BitVec.toNat_setWidth]; omega

end Sys2Proof.Machine
end

