-- ==== Sys2Proof/Laws/Exec.lean ====
section
/-! SUPPORT. What the five meanings that do not answer outright can do: one inversion lemma each. Every other meaning is one
next state by definition. -/

namespace Sys2Proof.Machine

theorem exec_ldBVx (x : RegIdx) (s : State) : exec (.ldBVx x) s = finish (storeDigits .fault (getV x s) s) := rfl

theorem exec_ldIVx (x : RegIdx) (s : State) : exec (.ldIVx x) s = finish ((regsUpTo x).foldlM (dumpReg .fault) s) := rfl

theorem exec_ldVxI (x : RegIdx) (s : State) : exec (.ldVxI x) s = finish ((regsUpTo x).foldlM (restoreReg .fault) s) := rfl

theorem exec_drw (x y : RegIdx) (n : Nibble) (s : State) :
    exec (.drw x y n) s = finish (drawSprite Params.chosen (getV x s).toNat (getV y s).toNat n.toNat s) := rfl

/-- `RET` answers in one of two ways. -/
theorem exec_ret_next {s t : State} (h : exec .ret s = .next t) :
    (s.stack = [] ∧ t = advance (report (.stackUnderflow s.pc) s)) ∨
    ∃ a rest, s.stack = a :: rest ∧ t = jumpTo (a + 2#16) (setStack rest s) := by
  cases hs : s.stack with
  | nil =>
    simp only [exec, execRet, popStack_nil hs] at h
    cases h; exact .inl ⟨rfl, rfl⟩
  | cons a rest =>
    simp only [exec, execRet, popStack_cons hs] at h
    cases h; exact .inr ⟨a, rest, rfl, rfl⟩

theorem exec_ret_of_nil {s : State} (h : s.stack = []) :
    exec .ret s = .next (advance (report (.stackUnderflow s.pc) s)) := by
  simp only [exec, execRet, popStack_nil h]

theorem exec_ret_of_cons {s : State} {a : Word} {rest : List Word} (h : s.stack = a :: rest) :
    exec .ret s = .next (jumpTo (a + 2#16) (setStack rest s)) := by
  simp only [exec, execRet, popStack_cons h]

/-- `LD B` that answers has replaced Memory and gone on. -/
theorem exec_ldBVx_next {x : RegIdx} {s t : State} (h : exec (.ldBVx x) s = .next t) :
    ∃ m, t = advance (setMem m s) := by
  obtain ⟨u, hu, rfl⟩ := finish_eq_next.1 h
  obtain ⟨s₁, h₁, hu⟩ := bind_eq_ok.1 hu
  obtain ⟨s₂, h₂, hu⟩ := bind_eq_ok.1 hu
  obtain ⟨-, rfl⟩ := writeByte_eq_ok.1 h₁
  obtain ⟨-, rfl⟩ := writeByte_eq_ok.1 h₂
  obtain ⟨-, rfl⟩ := writeByte_eq_ok.1 hu
  exact ⟨_, rfl⟩

/-- A dump that answers: its bytes lie in Memory, and the state before the program counter goes on. -/
theorem exec_ldIVx_next {x : RegIdx} {s t : State} (h : exec (.ldIVx x) s = .next t) :
    s.i.toNat + (x.val + 1) ≤ Config.memSize ∧ ∃ u, t = advance u ∧
      u.v = s.v ∧ u.pc = s.pc ∧ u.stack = s.stack ∧ u.display = s.display ∧ u.diags = s.diags ∧
      u.i.toNat = s.i.toNat + (x.val + 1) ∧
      (∀ j, j < x.val + 1 → Memory.read u.mem (s.i.toNat + j) = getV (Fin.ofNat 16 j) s) ∧
      SameMemoryOutside s.i.toNat (x.val + 1) s u := by
  obtain ⟨u, hu, rfl⟩ := finish_eq_next.1 h
  unfold regsUpTo at hu
  by_cases hfit : s.i.toNat + (x.val + 1) ≤ Config.memSize
  · obtain ⟨w, hw, hr⟩ := dump_first .fault (s := s) (x.val + 1) (by omega) hfit
    rw [hw] at hu
    cases hu
    exact ⟨hfit, _, rfl, hr⟩
  · rw [dump_first_fault _ (by omega) (by omega) (by omega)] at hu
    cases hu

/-- A restore that answers: its bytes lie in Memory, and the state before the program counter goes on. -/
theorem exec_ldVxI_next {x : RegIdx} {s t : State} (h : exec (.ldVxI x) s = .next t) :
    s.i.toNat + (x.val + 1) ≤ Config.memSize ∧ ∃ u, t = advance u ∧
      u.mem = s.mem ∧ u.pc = s.pc ∧ u.stack = s.stack ∧ u.display = s.display ∧ u.diags = s.diags ∧
      u.i.toNat = s.i.toNat + (x.val + 1) ∧
      (∀ r : RegIdx, r.val < x.val + 1 → getV r u = Memory.read s.mem (s.i.toNat + r.val)) ∧
      (∀ r : RegIdx, x.val + 1 ≤ r.val → getV r u = getV r s) := by
  obtain ⟨u, hu, rfl⟩ := finish_eq_next.1 h
  unfold regsUpTo at hu
  by_cases hfit : s.i.toNat + (x.val + 1) ≤ Config.memSize
  · obtain ⟨w, hw, hr⟩ := restore_first .fault (s := s) (x.val + 1) (by omega) hfit
    rw [hw] at hu
    cases hu
    exact ⟨hfit, _, rfl, hr⟩
  · rw [restore_first_fault _ (by omega) (by omega) (by omega)] at hu
    cases hu

/-- `DRW` that answers: the sprite fits, and its cells are flipped from the state with `VF` reset. -/
theorem exec_drw_next {x y : RegIdx} {n : Nibble} {s t : State} (h : exec (.drw x y n) s = .next t) :
    SpriteFits s (getV x s).toNat (getV y s).toNat n.toNat ∧ ∃ u, t = advance u ∧
      Flipped (spriteCovers s (getV x s).toNat (getV y s).toNat n.toNat) (setFlag 0#8 s) u := by
  obtain ⟨u, hu, rfl⟩ := finish_eq_next.1 h
  obtain ⟨hfit, hf⟩ := drawSprite_ok hu
  exact ⟨hfit, u, rfl, hf⟩

end Sys2Proof.Machine
end

