-- ==== Sys2Proof/Laws/PerInstr.lean ====
section
/-! SUPPORT. Statements about every instruction as syntax, one lemma per constructor. Family `SelectorOfEncoding`: the primary
selector of an instruction's word is the one spec/30_encoding.md R86 gives its row. -/

namespace Sys2Proof.Laws.SelectorOfEncoding

/-- The primary selector of the instruction's row (spec/30_encoding.md R86). -/
def selector : Instr → Nibble
  | .nop | .cls | .ret | .sys _ => 0x0#4
  | .jp _ => 0x1#4
  | .call _ => 0x2#4
  | .seImm _ _ => 0x3#4
  | .sneImm _ _ => 0x4#4
  | .seReg _ _ _ => 0x5#4
  | .ldImm _ _ => 0x6#4
  | .addImm _ _ => 0x7#4
  | .unimpl8 _ _ _ => 0x8#4
  | .unimpl9 _ _ _ => 0x9#4
  | .ldI _ => 0xA#4
  | .unimplB _ => 0xB#4
  | .unimplC _ _ => 0xC#4
  | .drw _ _ _ => 0xD#4
  | .unimplE _ _ => 0xE#4
  | .ldVxDt _ | .ldVxK _ | .ldDtVx _ | .ldStVx _ | .addIVx _ | .ldFVx _ | .ldBVx _ | .ldIVx _ | .ldVxI _ => 0xF#4
  | .fUnknown _ _ => 0xF#4

/-- The word of the instruction carries its row's primary selector. -/
def Statement (i : Instr) : Prop := opField (encode i) = selector i

theorem nop : Statement .nop := by unfold Statement; decide
theorem cls : Statement .cls := by unfold Statement; decide
theorem ret : Statement .ret := by unfold Statement; decide
theorem sys (nnn : Addr12) : Statement (.sys nnn) := opField_packNNN _ nnn
theorem jp (nnn : Addr12) : Statement (.jp nnn) := opField_packNNN _ nnn
theorem call (nnn : Addr12) : Statement (.call nnn) := opField_packNNN _ nnn
theorem seImm (x : RegIdx) (nn : Byte) : Statement (.seImm x nn) := opField_packXNN _ x nn
theorem sneImm (x : RegIdx) (nn : Byte) : Statement (.sneImm x nn) := opField_packXNN _ x nn
theorem seReg (x y : RegIdx) (n : Nibble) : Statement (.seReg x y n) := opField_packXYN _ x y n
theorem ldImm (x : RegIdx) (nn : Byte) : Statement (.ldImm x nn) := opField_packXNN _ x nn
theorem addImm (x : RegIdx) (nn : Byte) : Statement (.addImm x nn) := opField_packXNN _ x nn
theorem unimpl8 (x y : RegIdx) (n : Nibble) : Statement (.unimpl8 x y n) := opField_packXYN _ x y n
theorem unimpl9 (x y : RegIdx) (n : Nibble) : Statement (.unimpl9 x y n) := opField_packXYN _ x y n
theorem ldI (nnn : Addr12) : Statement (.ldI nnn) := opField_packNNN _ nnn
theorem unimplB (nnn : Addr12) : Statement (.unimplB nnn) := opField_packNNN _ nnn
theorem unimplC (x : RegIdx) (nn : Byte) : Statement (.unimplC x nn) := opField_packXNN _ x nn
theorem drw (x y : RegIdx) (n : Nibble) : Statement (.drw x y n) := opField_packXYN _ x y n
theorem unimplE (x : RegIdx) (nn : Byte) : Statement (.unimplE x nn) := opField_packXNN _ x nn
theorem ldVxDt (x : RegIdx) : Statement (.ldVxDt x) := opField_packXNN _ x _
theorem ldVxK (x : RegIdx) : Statement (.ldVxK x) := opField_packXNN _ x _
theorem ldDtVx (x : RegIdx) : Statement (.ldDtVx x) := opField_packXNN _ x _
theorem ldStVx (x : RegIdx) : Statement (.ldStVx x) := opField_packXNN _ x _
theorem addIVx (x : RegIdx) : Statement (.addIVx x) := opField_packXNN _ x _
theorem ldFVx (x : RegIdx) : Statement (.ldFVx x) := opField_packXNN _ x _
theorem ldBVx (x : RegIdx) : Statement (.ldBVx x) := opField_packXNN _ x _
theorem ldIVx (x : RegIdx) : Statement (.ldIVx x) := opField_packXNN _ x _
theorem ldVxI (x : RegIdx) : Statement (.ldVxI x) := opField_packXNN _ x _
theorem fUnknown (x : RegIdx) (nn : Byte) : Statement (.fUnknown x nn) := opField_packXNN _ x nn

end Sys2Proof.Laws.SelectorOfEncoding
end

