-- ==== Sys2Proof/Laws/Step.lean ====
section
/-! SUPPORT. The step, by its fetch (spec/45_cycle.md R190, R193). -/

namespace Sys2Proof.Machine

theorem step_of_fetch {s : State} {w : Word} (h : fetchWord s = .ok w) : step s = exec (decodeWord w) s := by
  unfold step; rw [h]

theorem step_of_fetch_error {s : State} {f : Fault} (h : fetchWord s = .error f) : step s = .fault f := by
  unfold step; rw [h]

/-- A step that answers has fetched a word and run its instruction. -/
theorem step_eq_next {s t : State} (h : step s = .next t) :
    ∃ w, fetchWord s = .ok w ∧ exec (decodeWord w) s = .next t := by
  cases hf : fetchWord s with
  | ok w => exact ⟨w, rfl, (step_of_fetch hf).symm.trans h⟩
  | error f => rw [step_of_fetch_error hf] at h; cases h

theorem fetchWord_eq (s : State) : fetchWord s = readWord s.pc.toNat s := rfl

theorem fetchWord_of_lt {s : State} (h : s.pc.toNat + 1 < Config.memSize) :
    fetchWord s = .ok (joinWord (Memory.read s.mem s.pc.toNat) (Memory.read s.mem (s.pc.toNat + 1))) :=
  readWord_of_lt h s

theorem fetchWord_of_le {s : State} (h : Config.memSize ≤ s.pc.toNat + 1) :
    fetchWord s = .error (.memOutOfRange (max s.pc.toNat Config.memSize) s.pc) := readWord_of_le h s

end Sys2Proof.Machine
end

