-- ==== Sys2Proof/Laws/Transport.lean ====
section
/-! SUPPORT. A change `g` of the state that the machine's accesses do not see commutes with them, and with every loop over
them. Used for claims that compare two runs. -/

namespace Sys2Proof.Machine

/-- A loop commutes with what each of its steps, at the elements of its list, commutes with. -/
theorem foldlM_map {α : Type} {f : State → α → Except Fault State} (g : State → State) :
    ∀ (l : List α) (s : State), (∀ u, ∀ a ∈ l, f (g u) a = (f u a).map g) → l.foldlM f (g s) = (l.foldlM f s).map g
  | [], _, _ => rfl
  | a :: l, s, hg => by
    rw [List.foldlM_cons, List.foldlM_cons, hg s a List.mem_cons_self]
    cases f s a with
    | error e => rfl
    | ok u => exact foldlM_map g l u fun v c hc => hg v c (List.mem_cons_of_mem a hc)

theorem readByteUnder_map (m : MemOob) {g : State → State} {s : State} (hpc : (g s).pc = s.pc) (hm : (g s).mem = s.mem)
    (addr : Nat) : readByteUnder m addr (g s) = readByteUnder m addr s := by
  simp only [readByteUnder, hpc, hm]

theorem writeByteUnder_map (m : MemOob) {g : State → State} {s : State} (hpc : (g s).pc = s.pc) (hm : (g s).mem = s.mem)
    (hset : ∀ m, g (setMem m s) = setMem m (g s)) (addr : Nat) (b : Byte) :
    writeByteUnder m addr b (g s) = (writeByteUnder m addr b s).map g := by
  unfold writeByteUnder
  split
  · simp only [Except.map, hset, hm]
  · cases m with
    | fault => simp only [Except.map, hpc]
    | answers p => simp only [Except.map, hset, hm]

theorem dispGetUnder_map (d : DispOob) {g : State → State} {s : State} (hpc : (g s).pc = s.pc)
    (hd : (g s).display = s.display) (x y : Nat) : dispGetUnder d x y (g s) = dispGetUnder d x y s := by
  simp only [dispGetUnder, hpc, hd]

theorem dispSetUnder_map (d : DispOob) {g : State → State} {s : State} (hpc : (g s).pc = s.pc)
    (hd : (g s).display = s.display) (hset : ∀ e, g (setDisplay e s) = setDisplay e (g s)) (x y : Nat) (b : Bool) :
    dispSetUnder d x y b (g s) = (dispSetUnder d x y b s).map g := by
  unfold dispSetUnder
  split
  · simp only [Except.map, hset, hd]
  · cases d with
    | fault => simp only [Except.map, hpc]
    | answers p => simp only [Except.map, hset, hd]

theorem drawBit_map (d : DispOob) {g : State → State} (hpc : ∀ s, (g s).pc = s.pc) (hd : ∀ s, (g s).display = s.display)
    (hset : ∀ s e, g (setDisplay e s) = setDisplay e (g s)) (hflag : ∀ b s, g (setFlag b s) = setFlag b (g s))
    (px py r : Nat) (b : Byte) (s : State) (c : Nat) :
    drawBit d px py r b (g s) c = (drawBit d px py r b s c).map g := by
  unfold drawBit
  split
  · rw [dispGetUnder_map d (hpc s) (hd s)]
    cases dispGetUnder d (px + c) (py + r) s with
    | error f => rfl
    | ok old =>
      rw [ok_bind, ok_bind, dispSetUnder_map d (hpc s) (hd s) (hset s)]
      cases dispSetUnder d (px + c) (py + r) (!old) s with
      | error f => rfl
      | ok u => cases old <;> simp [noteCollision, hflag, Except.map, bind, Except.bind, pure, Except.pure]
  · rfl

/-- Drawing commutes with a change that leaves `pc`, `I`, Memory and the Display alone and commutes with writing the
Display and the flag. -/
theorem drawSprite_map (p : Params) {g : State → State} (hpc : ∀ s, (g s).pc = s.pc) (hi : ∀ s, (g s).i = s.i)
    (hm : ∀ s, (g s).mem = s.mem) (hd : ∀ s, (g s).display = s.display)
    (hset : ∀ s e, g (setDisplay e s) = setDisplay e (g s)) (hflag : ∀ b s, g (setFlag b s) = setFlag b (g s))
    (px py n : Nat) (s : State) : drawSprite p px py n (g s) = (drawSprite p px py n s).map g := by
  unfold drawSprite
  rw [← hflag]
  refine foldlM_map g _ _ fun s r _ => ?_
  unfold drawRow indexAddr
  rw [readByteUnder_map p.memOob (hpc s) (hm s), hi]
  cases readByteUnder p.memOob (s.i.toNat + r) s with
  | error e => rfl
  | ok b => exact foldlM_map g _ _ fun s c _ => drawBit_map p.dispOob hpc hd hset hflag _ _ _ _ s c

/-- An outcome that commits the default program counter, over a loop that commutes with `g`. -/
theorem finish_map {r r' : Except Fault State} {g : State → State} (hg : ∀ s, g (advance s) = advance (g s))
    (h : r' = r.map g) :
    (∀ t, finish r = .next t → finish r' = .next (g t)) ∧ (∀ f, finish r = .fault f → finish r' = .fault f) := by
  subst h
  cases r with
  | ok u => exact ⟨fun t h => (by cases h; exact congrArg _ (hg _).symm), fun f h => (by cases h)⟩
  | error e => exact ⟨fun t h => (by cases h), fun f h => (by cases h; rfl)⟩

end Sys2Proof.Machine
end

