-- ==== Sys2Proof/Laws/Under.lean ====
section
/-! SUPPORT. The machine under given parameters: at the chosen ones it is `exec` and `step`; what a policy can change in an
access, and what a loop takes over from its steps. -/

namespace Sys2Proof.Machine

theorem execUnder_chosen (i : Instr) (s : State) : execUnder Params.chosen i s = exec i s := by
  cases i <;> rfl

theorem stepUnder_chosen (s : State) : stepUnder Params.chosen s = step s := by
  have h : fetchWordUnder Params.chosen.memOob s = fetchWord s := rfl
  unfold stepUnder step
  rw [h]
  cases fetchWord s with
  | ok w => exact execUnder_chosen _ s
  | error f => rfl

theorem stepUnder_of_fetch {p : Params} {s : State} {w : Word} (h : fetchWordUnder p.memOob s = .ok w) :
    stepUnder p s = execUnder p (decodeWord w) s := by
  unfold stepUnder; rw [h]

/-! An access that completes where out of range is a fault completes alike under every policy -/

theorem readByteUnder_of_ok (m : MemOob) {addr : Nat} {s : State} {b : Byte} (h : readByteUnder .fault addr s = .ok b) :
    readByteUnder m addr s = .ok b := by
  obtain ⟨ha, rfl⟩ := readByte_eq_ok.1 h
  exact readByteUnder_of_lt m ha s

theorem writeByteUnder_of_ok (m : MemOob) {addr : Nat} {b : Byte} {s t : State} (h : writeByteUnder .fault addr b s = .ok t) :
    writeByteUnder m addr b s = .ok t := by
  obtain ⟨ha, rfl⟩ := writeByte_eq_ok.1 h
  exact writeByteUnder_of_lt m ha b s

theorem fetchWordUnder_of_ok (m : MemOob) {s : State} {w : Word} (h : fetchWord s = .ok w) : fetchWordUnder m s = .ok w := by
  by_cases ha : s.pc.toNat + 1 < Config.memSize
  · rw [← h]
    exact (readWordUnder_of_lt m ha s).trans (readWord_of_lt ha s).symm
  · exact absurd ((readWord_of_le (Nat.not_lt.1 ha) s).symm.trans h) (by simp)

/-- A loop that answers answers alike when each of its steps does. -/
theorem foldlM_agree {α : Type} {f g : State → α → Except Fault State} (h : ∀ s a t, f s a = .ok t → g s a = .ok t) :
    ∀ (l : List α) {s t : State}, l.foldlM f s = .ok t → l.foldlM g s = .ok t
  | [], _, _, hl => hl
  | a :: l, s, t, hl => by
    rw [List.foldlM_cons] at hl ⊢
    obtain ⟨u, hu, hl⟩ := bind_eq_ok.1 hl
    rw [h s a u hu, ok_bind]
    exact foldlM_agree h l hl

/-! An access under a policy that answers always completes -/

theorem readByteUnder_answers (p : MemPolicy) (addr : Nat) (s : State) : ∃ b, readByteUnder (.answers p) addr s = .ok b := by
  unfold readByteUnder; split <;> exact ⟨_, rfl⟩

theorem writeByteUnder_answers (p : MemPolicy) (addr : Nat) (b : Byte) (s : State) :
    ∃ t, writeByteUnder (.answers p) addr b s = .ok t := by
  unfold writeByteUnder; split <;> exact ⟨_, rfl⟩

theorem fetchWordUnder_answers (p : MemPolicy) (s : State) : ∃ w, fetchWordUnder (.answers p) s = .ok w := by
  unfold fetchWordUnder readWordUnder; split <;> exact ⟨_, rfl⟩

theorem dispGetUnder_answers (d : DispPolicy) (x y : Nat) (s : State) : ∃ b, dispGetUnder (.answers d) x y s = .ok b := by
  unfold dispGetUnder; split <;> exact ⟨_, rfl⟩

theorem dispSetUnder_answers (d : DispPolicy) (x y : Nat) (b : Bool) (s : State) :
    ∃ t, dispSetUnder (.answers d) x y b s = .ok t := by
  unfold dispSetUnder; split <;> exact ⟨_, rfl⟩

/-- A loop answers when each of its steps does. -/
theorem foldlM_answers {α : Type} {f : State → α → Except Fault State} (h : ∀ s a, ∃ t, f s a = .ok t) :
    ∀ (l : List α) (s : State), ∃ t, l.foldlM f s = .ok t
  | [], s => ⟨s, rfl⟩
  | a :: l, s => by
    obtain ⟨u, hu⟩ := h s a
    rw [List.foldlM_cons, hu, ok_bind]
    exact foldlM_answers h l u

theorem finish_answers {r : Except Fault State} (h : ∃ u, r = .ok u) : ∃ t, finish r = .next t := by
  obtain ⟨u, rfl⟩ := h
  exact ⟨_, rfl⟩

/-- A bind answers when its first half does and its second does after every answer. -/
theorem bind_answers {α β : Type} {r : Except Fault α} {k : α → Except Fault β} (h : ∃ a, r = .ok a)
    (hk : ∀ a, ∃ b, k a = .ok b) : ∃ b, (r >>= k) = .ok b := by
  obtain ⟨a, rfl⟩ := h
  exact hk a

end Sys2Proof.Machine
end

