-- ==== Sys2Proof/Tests/Slice0.lean ====
section
/-! SUPPORT. Tests of one step each, their results taken from spec/95_test_vectors.md (the vector is named before each
test) or worked out by hand from the rule named; and one witness for each statement with hypotheses. -/

namespace Sys2Proof.Tests

open Sys2Proof Sys2Proof.Machine

/-! Small states, and what a test looks at -/

/-- One step that runs the word `w` where the program counter stands. -/
def ran (w : Nat) (s : State) : Host.Outcome State Fault Refusal := step (s.withFetchWord 16 w)

/-- What a next state shows; none where the outcome is no next state. -/
def after {α : Type} (o : Host.Outcome State Fault Refusal) (look : State → α) : Option α :=
  match o with
  | .next t => some (look t)
  | .fault _ => none
  | .refused _ => none

/-- The fault of an outcome. -/
def stopOf : Host.Outcome State Fault Refusal → Option Fault
  | .fault f => some f
  | .next _ => none
  | .refused _ => none

/-- The state with a program counter. -/
def pcAt (a : Word) (s : State) : State := jumpTo a s

/-- The state with the pixel on. -/
def lit (x : Fin 64) (y : Fin 32) (s : State) : State := setDisplay (Display.put s.display x y true) s

/-- The byte of Memory at an address. -/
def byteAt (a : Nat) (s : State) : Byte := Memory.read s.mem a

/-- The pixel at a coordinate. -/
def pixel (x : Fin 64) (y : Fin 32) (s : State) : Bool := Display.get s.display x y

/-! Well-formedness: one ill-formed term for each check, which the check refuses (spec/30_encoding.md R89) -/

theorem test_wf_sys_not_nop : (Instr.sys 0x000#12).wellFormed = false := by decide
theorem test_wf_sys_not_cls : (Instr.sys 0x0E0#12).wellFormed = false := by decide
theorem test_wf_sys_not_ret : (Instr.sys 0x0EE#12).wellFormed = false := by decide
theorem test_wf_fUnknown_not_named :
    (fExcept.map fun nn => (Instr.fUnknown 3 nn).wellFormed) = List.replicate 9 false := by decide
theorem test_wf_neighbours : (Instr.sys 0x0E1#12).wellFormed = true ∧ (Instr.fUnknown 0 0x1F#8).wellFormed = true := by
  decide

/-! Decoding: words written out bit by bit from the `encoding` column of spec/opcode_table.json -/

theorem test_decode_group0 :
    decodeWord 0b0000000000000000#16 = .nop ∧ decodeWord 0b0000000011100000#16 = .cls ∧
    decodeWord 0b0000000011101110#16 = .ret ∧ decodeWord 0b0000000011100001#16 = .sys 0x0E1#12 ∧
    decodeWord 0b0000000111100000#16 = .sys 0x1E0#12 ∧ decodeWord 0b0000111111111111#16 = .sys 0xFFF#12 := by decide

theorem test_decode_flow :
    decodeWord 0b0001101010111100#16 = .jp 0xABC#12 ∧ decodeWord 0b0010001100000000#16 = .call 0x300#12 ∧
    decodeWord 0b0011110001000010#16 = .seImm 12 0x42#8 ∧ decodeWord 0b0100101001111111#16 = .sneImm 10 0x7F#8 ∧
    decodeWord 0b0101000100101111#16 = .seReg 1 2 0xF#4 := by decide

theorem test_decode_constant :
    decodeWord 0b0110101000010010#16 = .ldImm 10 0x12#8 ∧ decodeWord 0b0111001100001010#16 = .addImm 3 0x0A#8 := by decide

theorem test_decode_unimplemented :
    decodeWord 0b1000000100100100#16 = .unimpl8 1 2 0x4#4 ∧ decodeWord 0b1001000100100000#16 = .unimpl9 1 2 0x0#4 ∧
    decodeWord 0b1011001100000000#16 = .unimplB 0x300#12 ∧ decodeWord 0b1100000111111111#16 = .unimplC 1 0xFF#8 ∧
    decodeWord 0b1110000110011110#16 = .unimplE 1 0x9E#8 := by decide

theorem test_decode_index_and_draw :
    decodeWord 0b1010000100100011#16 = .ldI 0x123#12 ∧ decodeWord 0b1101011110100101#16 = .drw 7 10 0x5#4 ∧
    decodeWord 0b1101000000000000#16 = .drw 0 0 0x0#4 := by decide

theorem test_decode_groupF :
    decodeWord 0b1111001000000111#16 = .ldVxDt 2 ∧ decodeWord 0b1111001000001010#16 = .ldVxK 2 ∧
    decodeWord 0b1111001000010101#16 = .ldDtVx 2 ∧ decodeWord 0b1111001000011000#16 = .ldStVx 2 ∧
    decodeWord 0b1111101000011110#16 = .addIVx 10 ∧ decodeWord 0b1111001000101001#16 = .ldFVx 2 := by decide

theorem test_decode_groupF_memory :
    decodeWord 0b1111001000110011#16 = .ldBVx 2 ∧ decodeWord 0b1111001001010101#16 = .ldIVx 2 ∧
    decodeWord 0b1111001001100101#16 = .ldVxI 2 ∧ decodeWord 0b1111000001110101#16 = .fUnknown 0 0x75#8 ∧
    decodeWord 0b1111111111111111#16 = .fUnknown 15 0xFF#8 := by decide

/-- The first byte of an instruction is its bits 15 to 8 (spec/20_memory.md R56); a lone byte is no instruction. -/
theorem test_decode_bytes :
    decode [0x6A#8, 0x12#8, 0x00#8] = .ok (.ldImm 10 0x12#8, [0x00#8]) ∧ decode [0x6A#8] = .error .truncated := by decide

theorem test_decode_table_word : decodeTableWord 16 0xF155 = some (.ldIVx 1) ∧ decodeTableWord 16 0 = some .nop := by decide

/-! Memory and the cycle -/

/-- Writing back what an unlisted address reads as leaves nothing listed. -/
theorem test_memory_canonical :
    Memory.write (Memory.write [] 0x300 5#8) 0x300 0#8 = [] ∧
    Memory.write (Memory.write [] 0x301 5#8) 0x300 6#8 = [(0x300, 6#8), (0x301, 5#8)] := by decide

/-- FETCH-1 and FETCH-2. -/
theorem test_fetch_byte_order :
    after (step (placeBytes 0x200 [0x6A#8, 0x12#8] State.reset)) (fun t => (getV 10 t, t.pc)) = some (0x12#8, 0x202#16) ∧
    after (step (pcAt 0x203#16 (placeBytes 0x203 [0x60#8, 0x2A#8] State.reset))) (fun t => (getV 0 t, t.pc)) =
      some (0x2A#8, 0x205#16) := by decide

/-- FETCH-3, FETCH-4 and FETCH-5. -/
theorem test_fetch_at_the_end :
    after (step (pcAt 0xFFE#16 State.reset)) (fun t => (t.pc, t.diags)) = some (0x1000#16, []) ∧
    stopOf (step (pcAt 0xFFF#16 State.reset)) = some (.memOutOfRange 0x1000 0xFFF#16) ∧
    stopOf (step (pcAt 0x1000#16 State.reset)) = some (.memOutOfRange 0x1000 0x1000#16) := by decide

/-! No-ops (the start state of 2.3) -/

/-- The start state of the vectors of 2.3. -/
def noOpStart : State :=
  lit 1 1 (placeBytes 0x345 [0x99#8] (setStack [0x222#16] (setI 0x345#16 (setV 15 0x01#8 (setV 1 0x34#8
    (setV 0 0x12#8 State.reset))))))

/-- The word leaves everything as it was but the program counter and the events it reports. -/
def onlyReports (w : Nat) (ds : List Diagnostic) : Bool :=
  decide (after (ran w noOpStart) id = some { noOpStart.withFetchWord 16 w with pc := 0x202#16, diags := ds })

theorem test_nop : onlyReports 0x0000 [] = true := by decide
theorem test_sys : onlyReports 0x0123 [.decodeError 0x0123#16 0x200#16] = true := by decide
theorem test_sys_below_cls : onlyReports 0x00E1 [.decodeError 0x00E1#16 0x200#16] = true := by decide
theorem test_unimpl8 : onlyReports 0x8014 [.decodeError 0x8014#16 0x200#16] = true := by decide
theorem test_unimpl9 : onlyReports 0x9010 [.decodeError 0x9010#16 0x200#16] = true := by decide
theorem test_unimplB : onlyReports 0xB300 [.decodeError 0xB300#16 0x200#16] = true := by decide
theorem test_unimplC : onlyReports 0xC0FF [.decodeError 0xC0FF#16 0x200#16] = true := by decide
theorem test_unimplE : onlyReports 0xE09E [.decodeError 0xE09E#16 0x200#16] = true := by decide
theorem test_ldVxDt : onlyReports 0xF007 [.decodeError 0xF007#16 0x200#16] = true := by decide
theorem test_ldVxK : onlyReports 0xF00A [.decodeError 0xF00A#16 0x200#16] = true := by decide
theorem test_ldDtVx : onlyReports 0xF015 [.decodeError 0xF015#16 0x200#16] = true := by decide
theorem test_ldStVx : onlyReports 0xF018 [.decodeError 0xF018#16 0x200#16] = true := by decide
theorem test_fUnknown : onlyReports 0xF075 [.decodeError 0xF075#16 0x200#16] = true := by decide
theorem test_fUnknown_last : onlyReports 0xFFFF [.decodeError 0xFFFF#16 0x200#16] = true := by decide

/-! Flow control -/

/-- JP-2. -/
theorem test_jp : after (ran 0x1203 State.reset) (fun t => (t.pc, t.stack)) = some (0x203#16, []) := by decide
/-- JP-5. -/
theorem test_jp_clears_high_bits : after (ran 0x1234 (pcAt 0xFF0#16 State.reset)) State.pc = some 0x234#16 := by decide
/-- CALL-2: the stack is listed top first. -/
theorem test_call : after (ran 0x2400 (pcAt 0x300#16 (setStack [0x200#16] State.reset))) (fun t => (t.pc, t.stack)) =
    some (0x400#16, [0x300#16, 0x200#16]) := by decide
/-- CALL-3. -/
theorem test_call_to_self : after (ran 0x2200 State.reset) (fun t => (t.pc, t.stack)) =
    some (0x200#16, [0x200#16]) := by decide
/-- RET-1. -/
theorem test_ret : after (ran 0x00EE (pcAt 0x400#16 (setStack [0x300#16, 0x200#16] State.reset)))
    (fun t => (t.pc, t.stack, t.diags)) = some (0x302#16, [0x200#16], []) := by decide
/-- RET-2. -/
theorem test_ret_empty : after (ran 0x00EE State.reset) (fun t => (t.pc, t.stack, t.diags)) =
    some (0x202#16, [], [.stackUnderflow 0x200#16]) := by decide
/-- SKIP-1 and SKIP-2. -/
theorem test_seImm : after (ran 0x3A7F (setV 10 0x7F#8 State.reset)) State.pc = some 0x204#16 ∧
    after (ran 0x3A7F (setV 10 0x7E#8 State.reset)) State.pc = some 0x202#16 := by decide
/-- SKIP-12: the skipped word is not looked at. -/
theorem test_seImm_skipped_word : after (step (placeBytes 0x200 [0x30#8, 0x00#8, 0xFF#8, 0xFF#8] State.reset))
    (fun t => (t.pc, t.diags)) = some (0x204#16, []) := by decide
/-- SKIP-5 and SKIP-6. -/
theorem test_sneImm : after (ran 0x4A7F (setV 10 0x7E#8 State.reset)) State.pc = some 0x204#16 ∧
    after (ran 0x4A7F (setV 10 0x7F#8 State.reset)) State.pc = some 0x202#16 := by decide
/-- SKIP-8. -/
theorem test_seReg : after (ran 0x5120 (setV 1 0x33#8 (setV 2 0x34#8 State.reset))) State.pc = some 0x202#16 := by decide
/-- SKIP-10. -/
theorem test_seReg_low_nibble : after (ran 0x512F (setV 1 0x33#8 (setV 2 0x33#8 State.reset)))
    (fun t => (t.pc, t.diags)) = some (0x204#16, []) := by decide

/-! Registers, constants, the index register -/

/-- LD-1. -/
theorem test_ldImm : after (ran 0x6A12 State.reset) (fun t => (getV 10 t, getV 1 t)) = some (0x12#8, 0#8) := by decide
/-- LD-3. -/
theorem test_ldImm_flag_register : after (ran 0x6FAB State.reset) (getV 15) = some 0xAB#8 := by decide
/-- ADD-3. -/
theorem test_addImm_wraps : after (ran 0x7A01 (setV 10 0xFF#8 (setV 15 1#8 State.reset)))
    (fun t => (getV 10 t, getV 15 t)) = some (0#8, 1#8) := by decide
/-- ADD-6. -/
theorem test_addImm_flag_register : after (ran 0x7F01 (setV 15 0xFF#8 State.reset)) (getV 15) = some 0#8 := by decide
/-- LDI-2. -/
theorem test_ldI : after (ran 0xAFFF (setI 0x1010#16 (setV 15 7#8 State.reset))) (fun t => (t.i, getV 15 t)) =
    some (0xFFF#16, 7#8) := by decide
/-- ADDI-1 and ADDI-2. -/
theorem test_addIVx_threshold :
    after (ran 0xF21E (setI 0xFFE#16 (setV 2 1#8 State.reset))) (fun t => (t.i, getV 15 t)) = some (0xFFF#16, 1#8) ∧
    after (ran 0xF21E (setI 0xFFE#16 (setV 15 1#8 State.reset))) (fun t => (t.i, getV 15 t)) = some (0xFFE#16, 0#8) := by
  decide
/-- ADDI-4 and ADDI-7. -/
theorem test_addIVx_wrap_and_flag_operand :
    after (ran 0xF21E (setI 0xFFFF#16 (setV 2 1#8 State.reset))) (fun t => (t.i, getV 15 t)) = some (0#16, 0#8) ∧
    after (ran 0xFF1E (setI 0x100#16 (setV 15 0x10#8 State.reset))) (fun t => (t.i, getV 15 t)) =
      some (0x110#16, 0#8) := by decide
/-- FONT-3 and E10. -/
theorem test_ldFVx : after (ran 0xF029 (setV 0 0x0F#8 State.reset)) State.i = some 0x9B#16 ∧
    after (ran 0xF029 (setV 0 0x0A#8 State.reset)) State.i = some 0x82#16 := by decide
/-- FONT-5. -/
theorem test_ldFVx_unmasked : after (ran 0xF029 (setV 0 0xFF#8 State.reset)) State.i = some 0x54B#16 := by decide

/-! BCD, dump, restore -/

/-- BCD-1. -/
theorem test_ldBVx : after (ran 0xF033 (setI 0xFFD#16 (setV 0 123#8 State.reset)))
    (fun t => (byteAt 0xFFD t, byteAt 0xFFE t, byteAt 0xFFF t, t.i)) = some (1#8, 2#8, 3#8, 0xFFD#16) := by decide
/-- BCD-2. -/
theorem test_ldBVx_fault : stopOf (ran 0xF033 (setI 0xFFE#16 (setV 0 123#8 State.reset))) =
    some (.memOutOfRange 0x1000 0x200#16) := by decide
/-- DUMP-1 and DUMP-4. -/
theorem test_ldIVx :
    after (ran 0xF055 (setI 0x300#16 (setV 0 0xAB#8 (setV 1 0xCD#8 State.reset))))
      (fun t => (byteAt 0x300 t, byteAt 0x301 t, t.i)) = some (0xAB#8, 0#8, 0x301#16) ∧
    stopOf (ran 0xF155 (setI 0xFFF#16 (setV 0 0xAB#8 (setV 1 0xCD#8 State.reset)))) =
      some (.memOutOfRange 0x1000 0x200#16) := by decide
/-- DUMP-5: the dump stores the word after itself. -/
theorem test_ldIVx_next_word : after (ran 0xF155 (setI 0x202#16 (setV 0 0x12#8 State.reset)))
    (fun t => (fetchWord t, t.i)) = some (.ok 0x1200#16, 0x204#16) := by decide
/-- REST-1. -/
theorem test_ldVxI : after (ran 0xF065 (setI 0x300#16 (placeBytes 0x300 [0x5A#8, 0x5B#8] (setV 1 0x77#8 State.reset))))
    (fun t => (getV 0 t, getV 1 t, t.i)) = some (0x5A#8, 0x77#8, 0x301#16) := by decide
/-- REST-2 and REST-4, at the last register. -/
theorem test_ldVxI_all :
    after (ran 0xFF65 (setI 0x400#16 (placeBytes 0x40E [0xFE#8, 0xFF#8] State.reset)))
      (fun t => (getV 14 t, getV 15 t, t.i)) = some (0xFE#8, 0xFF#8, 0x410#16) ∧
    stopOf (ran 0xF065 (setI 0x1000#16 State.reset)) = some (.memOutOfRange 0x1000 0x200#16) := by decide

/-! Display -/

/-- CLS-1. -/
theorem test_cls : after (ran 0x00E0 (lit 0 0 (lit 63 31 (lit 10 10 (setV 15 1#8 State.reset)))))
    (fun t => (decide (t.display = State.reset.display), getV 15 t, t.pc)) = some (true, 1#8, 0x202#16) := by decide

/-- The state of DRW-1: the byte `0x81` at `I`, the position (2, 3). -/
def drawStart : State := setI 0x300#16 (placeBytes 0x300 [0x81#8] (setV 0 2#8 (setV 1 3#8 State.reset)))

/-- DRW-1 and DRW-2. -/
theorem test_drw :
    after (ran 0xD011 drawStart) (fun t => (decide (t.display = (lit 2 3 (lit 9 3 State.reset)).display), getV 15 t)) =
      some (true, 0#8) ∧
    after (ran 0xD011 (lit 2 3 drawStart)) (fun t => (decide (t.display = (lit 9 3 State.reset).display), getV 15 t)) =
      some (true, 1#8) := by decide

/-- DRW-7 and DRW-9. -/
theorem test_drw_faults :
    stopOf (ran 0xD011 (setI 0x300#16 (placeBytes 0x300 [0xF8#8] (setV 0 60#8 (setV 1 31#8 State.reset))))) =
      some (.dispOutOfRange 64 31 0x200#16) ∧
    stopOf (ran 0xD012 (setI 0xFFF#16 (placeBytes 0xFFF [0x80#8] State.reset))) =
      some (.memOutOfRange 0x1000 0x200#16) := by decide

/-! Reset -/

/-- RESET-1. -/
theorem test_reset_operation :
    (fun t => (t.pc, t.v, t.i, t.stack, byteAt 0x300 t, pixel 1 1 t))
      (resetEngine (pcAt 0x456#16 (setV 3 9#8 (setV 15 1#8 (setI 0x321#16 (setStack [0x300#16, 0x200#16]
        (lit 1 1 (placeBytes 0x300 [7#8] State.reset)))))))) =
      (0x200#16, Vector.replicate 16 0#8, 0#16, [], 7#8, true) := by decide

/-- The interface's machine starts at the reset state and takes this machine's step. -/
theorem test_core : Sys2Proof.core.reset = State.reset ∧ Sys2Proof.core.step State.reset = step State.reset := ⟨rfl, rfl⟩

/-! Other policies (spec/60_exceptions.md R204, R205): the results are worked out by hand from the policy -/

/-- A Memory and a Display that wrap an access out of range, and a stack of one entry. -/
def wrapping : Params where
  memOob := .answers
    { readByte := fun a m => Memory.read m (a % 4096)
      readWord := fun a m => joinWord (Memory.read m (a % 4096)) (Memory.read m ((a + 1) % 4096))
      writeByte := fun a b m => Memory.write m (a % 4096) b }
  dispOob := .answers
    { get := fun x y d => Display.get d (Fin.ofNat 64 x) (Fin.ofNat 32 y)
      set := fun x y b d => Display.put d (Fin.ofNat 64 x) (Fin.ofNat 32 y) b }
  stackDepth := some 1

/-- The dump of DUMP-4 completes; its second byte is at address 0. -/
theorem test_under_dump :
    after (stepUnder wrapping ((setI 0xFFF#16 (setV 0 0xAB#8 (setV 1 0xCD#8 State.reset))).withFetchWord 16 0xF155))
      (fun t => (byteAt 0xFFF t, byteAt 0 t, t.i, t.pc)) = some (0xAB#8, 0xCD#8, 0x1001#16, 0x202#16) := by decide

/-- The sprite of DRW-7 completes; its fifth pixel is in column 0. -/
theorem test_under_draw :
    after (stepUnder wrapping ((setI 0x300#16 (placeBytes 0x300 [0xF8#8] (setV 0 60#8 (setV 1 31#8
      State.reset)))).withFetchWord 16 0xD011)) (fun t => (pixel 63 31 t, pixel 0 31 t, pixel 1 31 t, getV 15 t)) =
      some (true, true, false, 0#8) := by decide

/-- The fetch of FETCH-4 completes: the word `6A12` lies over the end. -/
theorem test_under_fetch :
    after (stepUnder wrapping (pcAt 0xFFF#16 (placeBytes 0xFFF [0x6A#8] (placeBytes 0 [0x12#8] State.reset))))
      (fun t => (getV 10 t, t.pc)) = some (0x12#8, 0x1001#16) := by decide

/-- `CALL` on a stack of one entry: into an empty one it completes, on a full one it faults. -/
theorem test_under_call :
    after (stepUnder wrapping (State.reset.withFetchWord 16 0x2300)) (fun t => (t.pc, t.stack)) =
      some (0x300#16, [0x200#16]) ∧
    stopOf (stepUnder wrapping ((setStack [0x222#16] State.reset).withFetchWord 16 0x2300)) =
      some (.stackOverflow 0x200#16) := by decide

/-! One witness for each statement with hypotheses: a state and operands that meet all of them together, at the values where
clauses meet -/

theorem witness_DecodingAnEncodingGivesItBack : (Instr.drw 15 0 0xF#4).wellFormed = true := by decide
theorem witness_WrittenByteIsReadBack : 0xFFF < Config.memSize := by decide
theorem witness_WordReadIsBigEndian : 0xFFE + 1 < Config.memSize := by decide
theorem witness_AccessOutOfRangeFaults_memory : Config.memSize ≤ 0x1000 ∧ Config.memSize ≤ 0xFFF + 1 := by decide
theorem witness_AccessOutOfRangeFaults_display :
    (Config.dispW ≤ 64 ∨ Config.dispH ≤ 31) ∧ (Config.dispW ≤ 63 ∨ Config.dispH ≤ 32) := by decide
theorem witness_StoredBytesAreTheNextFetch : (pcAt 0xFFE#16 State.reset).pc.toNat + 1 < Config.memSize := by decide
theorem witness_SetPixelIsReadBack : 63 < Config.dispW ∧ 31 < Config.dispH ∧ ¬(62 = 63 ∧ 31 = 31) := by decide
theorem witness_StepRunsTheDecodedInstruction :
    readByte State.reset.pc.toNat State.reset = .ok 0#8 ∧ readByte (State.reset.pc.toNat + 1) State.reset = .ok 0#8 ∧
    decode [0#8, 0#8] = .ok (.nop, []) := by decide
theorem witness_FetchPastTheEndFaults : Config.memSize ≤ (pcAt 0xFFF#16 State.reset).pc.toNat + 1 := by decide
theorem witness_StepKeepsTheMemoryCanonical :
    (setI 0x300#16 (setV 0 0xAB#8 State.reset)).Inv ∧
    (after (ran 0xF055 (setI 0x300#16 (setV 0 0xAB#8 State.reset))) (byteAt 0x300)) = some 0xAB#8 := by decide
theorem witness_RegistersChangeOnlyWhereListed :
    after (exec (.addIVx 2) State.reset) (fun _ => writesReg (.addIVx 2) 2) = some false := by decide
theorem witness_RegistersNotReadDoNotMatter :
    readsReg (.drw 0 1 0x1#4) 15 = false ∧ after (exec (.drw 0 1 0x1#4) drawStart) (getV 15) = some 0#8 ∧
    stopOf (exec (.ldVxI 0) (setI 0x1000#16 State.reset)) = some (.memOutOfRange 0x1000 0x200#16) := by decide
theorem witness_IndexChangesOnlyWhereListed :
    after (exec (.ldBVx 0) State.reset) (fun _ => writesIndex (.ldBVx 0)) = some false := by decide
theorem witness_CallStackChangesOnlyInCallAndRet :
    after (exec (.call 0x300#12) State.reset) State.stack = some [0x200#16] ∧
    after (exec .ret (setStack [0x300#16, 0x200#16] State.reset)) State.stack = some [0x200#16] ∧
    after (exec .ret State.reset) State.stack = some [] ∧ after (exec .cls State.reset) State.stack = some [] := by decide
theorem witness_MemoryAndDisplayChangeOnlyWhereListed :
    after (exec (.ldIVx 0) drawStart) (byteAt 0x300) = some 2#8 ∧
    after (exec (.drw 0 1 0x1#4) drawStart) (pixel 2 3) = some true ∧ after (exec .nop drawStart) (pixel 2 3) = some false := by
  decide
theorem witness_PcGoesOnByTwoUnlessOverridden :
    after (exec .ret State.reset) State.pc = some 0x202#16 ∧ State.reset.stack = [] ∧
    skips (.seImm 0 1#8) State.reset = false ∧ after (exec (.seImm 0 1#8) State.reset) State.pc = some 0x202#16 ∧
    (pcAt 0xFFFD#16 State.reset).pc.toNat + 2 < 65536 := by decide
theorem witness_PcArithmeticIsModulo65536 :
    after (exec .nop (pcAt 0xFFFE#16 State.reset)) State.pc = some 0#16 ∧
    after (exec (.seImm 0 0#8) (pcAt 0xFFFC#16 State.reset)) State.pc = some 0#16 ∧
    after (exec .ret (setStack [0xFFFE#16] State.reset)) State.pc = some 0#16 := by decide
theorem witness_AtMostOneDiagnosticPerCycle :
    after (ran 0x0123 State.reset) State.diags = some [.decodeError 0x0123#16 0x200#16] ∧
    after (ran 0x0000 State.reset) State.diags = some [] := by decide
theorem witness_DiagnosticOutputIsNeverRead :
    after (exec .ret State.reset) State.diags = some [.stackUnderflow 0x200#16] ∧
    stopOf (exec (.ldBVx 0) (setI 0xFFE#16 State.reset)) = some (.memOutOfRange 0x1000 0x200#16) := by decide
theorem witness_StepReportsTheFetchedWord :
    fetchWord (State.reset.withFetchWord 16 0xF075) = .ok 0xF075#16 ∧ isDiagNop (decodeWord 0xF075#16) = true := by decide
theorem witness_RetResumesAfterTheCall :
    (setStack [0xFFFD#16] State.reset).stack = [0xFFFD#16] ∧ (0xFFFD#16 : Word).toNat + 2 < 65536 ∧
    State.reset.stack = [] := by decide
theorem witness_RetOnEmptyStackReportsItsAddress : State.reset.stack = [] := by decide
theorem witness_ImmediateSkipsFollowTheComparison :
    getV 0 State.reset = 0#8 ∧ getV 0 State.reset ≠ 1#8 ∧ (pcAt 0xFFFB#16 State.reset).pc.toNat + 4 < 65536 := by decide
theorem witness_RegisterSkipIgnoresTheLowNibble :
    getV 0 State.reset = getV 1 State.reset ∧ getV 0 (setV 1 1#8 State.reset) ≠ getV 1 (setV 1 1#8 State.reset) := by decide
theorem witness_RetUndoesTheCall :
    exec (.call 0x300#12) State.reset = .next (pcAt 0x300#16 (setStack [0x200#16] State.reset)) ∧
    (setStack [0x200#16] State.reset).stack = (pcAt 0x300#16 (setStack [0x200#16] State.reset)).stack := ⟨rfl, rfl⟩
theorem witness_JumpToItselfIsFixedPoint :
    fetchWord (State.reset.withFetchWord 16 0x1200) = .ok (encode (.jp 0x200#12)) ∧
    (State.reset.withFetchWord 16 0x1200).pc.toNat = (0x200#12 : Addr12).toNat := by decide
theorem witness_LoadImmediateSetsTheRegister : (14 : RegIdx) ≠ 15 ∧ State.reset.pc.toNat + 2 < 65536 := by decide
theorem witness_AddIndexSetsTheThresholdFlag :
    after (exec (.addIVx 0) (setI 0xFFF#16 State.reset)) (fun t => decide (0xFFF ≤ t.i.toNat)) = some true ∧
    after (exec (.addIVx 0) (setI 0xFFE#16 State.reset)) (fun t => decide (t.i.toNat < 0xFFF)) = some true := by decide
theorem witness_BcdStoresTheThreeDigits : (setI 0xFFD#16 State.reset).i.toNat + 2 < Config.memSize := by decide
theorem witness_DumpStoresTheRegisters :
    (setI 0xFF0#16 State.reset).i.toNat + (15 : RegIdx).val < Config.memSize ∧
    (setI 0xFFF#16 State.reset).i.toNat + (0 : RegIdx).val < Config.memSize ∧ (0 : RegIdx) ≤ 15 := by decide
theorem witness_RestoreLoadsTheRegisters :
    (setI 0xFFF#16 State.reset).i.toNat + (0 : RegIdx).val < Config.memSize ∧ (0 : RegIdx) ≤ 0 ∧ (0 : RegIdx) < 1 := by decide
theorem witness_ByteRangePastTheEndFaults :
    Config.memSize ≤ (setI 0xFFE#16 State.reset).i.toNat + 2 ∧
    Config.memSize ≤ (setI 0xFFF#16 State.reset).i.toNat + (1 : RegIdx).val := by decide
theorem witness_RestoreUndoesTheDump :
    after (exec (.ldIVx 3) (setI 0x400#16 (setV 3 0x44#8 State.reset))) (fun t =>
      decide ((setV 3 0#8 (setI 0x400#16 t)).mem = t.mem ∧ (setV 3 0#8 (setI 0x400#16 t)).i = 0x400#16)) = some true := by
  decide
/-- DRW-6: a sprite that ends in the last column of the last row. -/
theorem witness_DrawFlipsExactlyTheSpritePixels :
    SpriteFits (setI 0x300#16 (placeBytes 0x300 [0xF0#8] State.reset)) 60 31 1 := by decide
/-- DRW-5: a clear byte off the grid. -/
theorem witness_DrawFlipsExactlyTheSpritePixels_clear : SpriteFits (setI 0x300#16 State.reset) 200 200 1 := by decide
/-- DRW-2 collides, DRW-1 does not. -/
theorem witness_DrawFlipsExactlyTheSpritePixels_collision :
    SpriteCollides (lit 2 3 drawStart) 2 3 1 ∧ ¬SpriteCollides drawStart 2 3 1 := by
  constructor
  · exact ⟨2, 3, by decide, by decide⟩
  · rintro ⟨x, y, -, h⟩
    have off : Display.get drawStart.display x y = false := by
      show Display.get State.reset.display x y = false
      simp [Display.get, State.reset]
    rw [off] at h
    cases h
/-- DRW-7: one column too far. -/
theorem witness_DrawCompletesExactlyWhereItFits_display :
    ¬SpriteFits (setI 0x300#16 (placeBytes 0x300 [0xF8#8] State.reset)) 60 31 1 := by decide
/-- The row past the end of Memory does not fit (DRW-9); the one at its last byte does. -/
theorem witness_DrawCompletesExactlyWhereItFits :
    ¬SpriteFits (setI 0xFFF#16 State.reset) 0 0 2 ∧ SpriteFits (setI 0xFFF#16 State.reset) 0 0 1 := by decide
/-- E6. -/
theorem witness_DrawingTwiceRestoresTheDisplay :
    after (exec (.drw 0 1 0x1#4) drawStart) (fun t => (getV 0 t, getV 1 t, pixel 2 3 t, pixel 2 3 drawStart)) =
      some (2#8, 3#8, true, false) := by decide
/-- The clause of a second draw whose flag is 0: a sprite of no rows. -/
theorem witness_DrawingTwiceRestoresTheDisplay_empty :
    after (exec (.drw 0 1 0x0#4) drawStart) State.display = some drawStart.display := by decide
theorem witness_ResetMeetsTheMemoryInvariant : (placeBytes 0x300 [7#8] State.reset).Inv := by decide
theorem witness_PowerUpStateIsClear : 0xFFF < Config.memSize := by decide
theorem witness_RomBytesAreLoadedFrom0x200 : (List.replicate 3584 (1#8 : Byte)).length ≤ 3584 :=
  Nat.le_of_eq List.length_replicate
theorem witness_BootedMachineRunsTheFirstWord : ([] : List Byte).length + 2 ≤ 3584 := by decide
theorem witness_BoundedStackFaultsWhenFull :
    State.reset.stack.length < 1 ∧ 1 ≤ (setStack [0x200#16] State.reset).stack.length := by decide
theorem witness_UnimplementedFamiliesAreDiagnosticNoOps :
    Instr.unimplC 1 0x9E#8 ∈ [Instr.sys 0x123#12, .unimpl8 1 2 0#4, .unimpl9 1 2 0#4, .unimplB 0x123#12,
      .unimplC 1 0x9E#8] := by decide
theorem witness_OutOfScopeWordsAreDiagnosticNoOps :
    Instr.fUnknown 1 0x75#8 ∈ [Instr.unimplE 1 0x75#8, .ldVxDt 1, .ldVxK 1, .ldDtVx 1, .ldStVx 1, .fUnknown 1 0x75#8] := by
  decide
theorem witness_AccessOutOfRangeFollowsThePolicy :
    0xFFF < Config.memSize ∧ Config.memSize ≤ 0x1000 ∧ 0xFFE + 1 < Config.memSize ∧ Config.memSize ≤ 0xFFF + 1 ∧
    (63 < Config.dispW ∧ 31 < Config.dispH) ∧ (Config.dispW ≤ 64 ∨ Config.dispH ≤ 0) := by decide
theorem witness_CompletedCycleDoesNotSeeThePolicies :
    { wrapping with stackDepth := none }.stackDepth = none ∧ after (ran 0x2300 State.reset) State.pc = some 0x300#16 :=
  ⟨rfl, by decide⟩
theorem witness_PowerUpHoldsTheGivenContents : 0xFFF < Config.memSize := by decide

end Sys2Proof.Tests
end

namespace Sys2Proof.Machine

/-! The program counter after an instruction (spec/10_state.md R25; spec/45_cycle.md R190). -/

/-- The instructions whose handler assigns `next_pc` an address of its own: `JP`, `CALL` and `RET`. -/
def assignsPc (i : Instr) : Bool :=
  match i with
  | .jp _ | .call _ | .ret => true
  | _ => false

/-- Every other instruction commits the default `next_pc`, or two more where its skip is taken; the wrap at `2^16` is
in the addition of words. -/
theorem exec_next_pc {i : Instr} {s t : State} (hi : assignsPc i = false) (h : exec i s = .next t) :
    t.pc = if skips i s then s.pc + 2#16 + 2#16 else s.pc + 2#16 := by
  cases i with
  | jp | call | ret => cases hi
  | seImm | sneImm | seReg => cases h; exact skipIf_pc _ s
  | ldBVx => obtain ⟨m, rfl⟩ := exec_ldBVx_next h; rfl
  | ldIVx => obtain ⟨-, u, rfl, -, hpc, -⟩ := exec_ldIVx_next h; simp [skips, hpc]
  | ldVxI => obtain ⟨-, u, rfl, -, hpc, -⟩ := exec_ldVxI_next h; simp [skips, hpc]
  | drw => obtain ⟨-, u, rfl, hflip⟩ := exec_drw_next h; simp [skips, hflip.pc]
  | nop | cls | ldImm | addImm | ldI | addIVx | ldFVx => cases h; rfl
  | sys | unimpl8 | unimpl9 | unimplB | unimplC | unimplE | ldVxDt | ldVxK | ldDtVx | ldStVx | fUnknown => cases h; rfl

/-- A sum of words that stays below `2^16` is the sum of their numbers. -/
theorem pcGoesOnBy_of_pc_eq {k : Nat} {s t : State} (h : t.pc = s.pc + BitVec.ofNat 16 k) : PcGoesOnBy k s t := by
  intro hlt
  rw [h, BitVec.toNat_add, BitVec.toNat_ofNat]
  omega

/-- Settles O20: the case split is the one of the statement; `exec_next_pc` says what every instruction does that does
not assign `next_pc`, and `RET` on an empty stack reports and goes on. -/
theorem pcGoesOnByTwoUnlessOverridden : Obligations.PcGoesOnByTwoUnlessOverridden := by
  intro i s t h
  have hseq (hi : assignsPc i = false) (hskip : skips i s = false) : PcGoesOnBy 2 s t :=
    pcGoesOnBy_of_pc_eq (by simp [exec_next_pc hi h, hskip])
  cases i with
  | jp | call => trivial
  | ret =>
    intro hempty
    rw [exec_ret_of_nil hempty] at h
    cases h
    exact pcGoesOnBy_of_pc_eq rfl
  | _ => exact hseq rfl

end Sys2Proof.Machine

namespace Sys2Proof.Machine

/-! One byte, one word and one pixel (spec/20_memory.md R53, R54, R62). -/

/-- Settles O5: the write answers with only Memory replaced, and `Memory.read_write` says what is read there afterwards. -/
theorem writtenByteIsReadBack : Obligations.WrittenByteIsReadBack := by
  intro a b s ha
  refine ⟨_, writeByte_of_lt ha b s, ?_, fun c hc => ?_, rfl⟩
  · rw [readByte_of_lt ha, setMem_mem, Memory.read_write, if_pos rfl]
  · rw [setMem_mem, Memory.read_write, if_neg hc]

/-- Settles O6: the word read joins the two bytes, the one at the address on top. -/
theorem wordReadIsBigEndian : Obligations.WordReadIsBigEndian :=
  fun _ s ha => ⟨_, readWord_of_lt ha s, joinWord_toNat _ _⟩

/-- What any coordinate gets after a pixel is put: the value at the pixel's own coordinate, and elsewhere what it got
before, which off the grid is the fault of the same access. -/
theorem dispGet_setDisplay_put {x y : Nat} (hx : x < Config.dispW) (hy : y < Config.dispH) (b : Bool) (s : State)
    (x' y' : Nat) :
    dispGet x' y' (setDisplay (Display.put s.display ⟨x, hx⟩ ⟨y, hy⟩ b) s) =
      if x' = x ∧ y' = y then .ok b else dispGet x' y' s := by
  by_cases hgrid : x' < Config.dispW ∧ y' < Config.dispH
  · obtain ⟨hx', hy'⟩ := hgrid
    rw [dispGet_of_lt hx' hy', dispGet_of_lt hx' hy', setDisplay_display, Display.get_put, apply_ite Except.ok]
    simp only [Fin.mk.injEq]
  · have hne : ¬(x' = x ∧ y' = y) := fun ⟨ex, ey⟩ => hgrid ⟨ex ▸ hx, ey ▸ hy⟩
    rw [if_neg hne, dispGet_off_grid hgrid, dispGet_off_grid hgrid, setDisplay_pc]

/-- Settles O9: the set answers with only the Display replaced, and `dispGet_setDisplay_put` says what every coordinate
gets afterwards. -/
theorem setPixelIsReadBack : Obligations.SetPixelIsReadBack := by
  intro x y b s hx hy
  refine ⟨_, dispSet_of_lt hx hy b s, ?_, fun x' y' hne => ?_, rfl⟩
  · rw [dispGet_setDisplay_put, if_pos ⟨rfl, rfl⟩]
  · rw [dispGet_setDisplay_put, if_neg hne]

end Sys2Proof.Machine

namespace Sys2Proof.Machine

/-! Flow control (spec/41_flow_control.md). -/

/-- `JP` has no faulting branch: it answers with `next_pc` replaced by the extended target (R130). -/
theorem exec_jp (nnn : Addr12) (s : State) : exec (.jp nnn) s = .next (jumpTo (zext16 nnn) s) := rfl

/-- Settles O28: extending the target to 16 bits keeps its number, and `jumpTo` replaces the program counter alone. -/
theorem jumpSetsThePc : Obligations.JumpSetsThePc := by
  intro nnn s
  refine ⟨_, exec_jp nnn s, ?_, fun r => getV_jumpTo r _ s, jumpTo_i _ s, jumpTo_stack _ s, fun a => ?_,
    jumpTo_display _ s, jumpTo_diags _ s⟩
  · rw [jumpTo_pc, zext16_toNat]
  · rw [jumpTo_mem]

end Sys2Proof.Machine

namespace Sys2Proof.Machine

/-! Registers and constants (spec/42_register_constant.md). -/

/-- `LD Vx, NN` has no faulting branch: it answers with the immediate written and `next_pc` at its default (R150). -/
theorem exec_ldImm (x : RegIdx) (nn : Byte) (s : State) : exec (.ldImm x nn) s = .next (advance (setV x nn s)) := rfl

/-- `ADD Vx, NN` has no faulting branch either: it answers with the sum of bytes written, and no flag (R151). -/
theorem exec_addImm (x : RegIdx) (nn : Byte) (s : State) :
    exec (.addImm x nn) s = .next (advance (setV x (getV x s + nn) s)) := rfl

/-- The frame of one register write followed by the default `next_pc`: the flag register is a register like the others. -/
theorem advance_setV_frame (x : RegIdx) (b : Byte) (s : State) :
    SameRegistersBut x s (advance (setV x b s)) ∧ PcGoesOnBy 2 s (advance (setV x b s)) ∧
    (advance (setV x b s)).i = s.i ∧ (advance (setV x b s)).stack = s.stack ∧ SameMemory s (advance (setV x b s)) ∧
    (advance (setV x b s)).display = s.display ∧ (advance (setV x b s)).diags = s.diags := by
  refine ⟨fun r hr => ?_, pcGoesOnBy_of_pc_eq ?_, ?_, ?_, fun a => ?_, ?_, ?_⟩
  · rw [getV_advance, getV_setV_of_ne hr]
  · rw [advance_pc, setV_pc]
  · rw [advance_i, setV_i]
  · rw [advance_stack, setV_stack]
  · rw [advance_mem, setV_mem]
  · rw [advance_display, setV_display]
  · rw [advance_diags, setV_diags]

/-- Settles O36: the register written reads the immediate, and `advance_setV_frame` says the rest. -/
theorem loadImmediateSetsTheRegister : Obligations.LoadImmediateSetsTheRegister := by
  intro x nn s
  have hreg : getV x (advance (setV x nn s)) = nn := by rw [getV_advance, getV_setV_self]
  exact ⟨_, exec_ldImm x nn s, hreg, advance_setV_frame x nn s⟩

/-- Settles O37: the register written reads the sum of bytes, whose number is the sum modulo `2^8`, and
`advance_setV_frame` says the rest. -/
theorem addImmediateWrapsWithoutFlag : Obligations.AddImmediateWrapsWithoutFlag := by
  intro x nn s
  have hsum : (getV x (advance (setV x (getV x s + nn) s))).toNat = ((getV x s).toNat + nn.toNat) % 256 := by
    rw [getV_advance, getV_setV_self, BitVec.toNat_add]
  exact ⟨_, exec_addImm x nn s, hsum, advance_setV_frame x _ s⟩

end Sys2Proof.Machine

namespace Sys2Proof.Machine

/-! The index register and Memory (spec/43_memory_address.md). -/

/-- `LD I, NNN` has no faulting branch: it answers with the extended immediate in `I` and `next_pc` at its default (R160). -/
theorem exec_ldI (nnn : Addr12) (s : State) : exec (.ldI nnn) s = .next (advance (setI (zext16 nnn) s)) := rfl

/-- The frame of a write to `I` followed by the default `next_pc`: every general register stays, the flag register with
them. -/
theorem advance_setI_frame (a : Word) (s : State) :
    SameRegisters s (advance (setI a s)) ∧ PcGoesOnBy 2 s (advance (setI a s)) ∧
    (advance (setI a s)).stack = s.stack ∧ SameMemory s (advance (setI a s)) ∧
    (advance (setI a s)).display = s.display ∧ (advance (setI a s)).diags = s.diags := by
  refine ⟨fun r => ?_, pcGoesOnBy_of_pc_eq ?_, ?_, fun m => ?_, ?_, ?_⟩
  · rw [getV_advance, getV_setI]
  · rw [advance_pc, setI_pc]
  · rw [advance_stack, setI_stack]
  · rw [advance_mem, setI_mem]
  · rw [advance_display, setI_display]
  · rw [advance_diags, setI_diags]

/-- Settles O38: extending the immediate to 16 bits keeps its number, and `advance_setI_frame` says the rest. -/
theorem loadIndexSetsTwelveBits : Obligations.LoadIndexSetsTwelveBits := by
  intro nnn s
  have hi : (advance (setI (zext16 nnn) s)).i.toNat = nnn.toNat := by rw [advance_i, setI_i, zext16_toNat]
  exact ⟨_, exec_ldI nnn s, hi, advance_setI_frame (zext16 nnn) s⟩

end Sys2Proof.Machine

namespace Sys2Proof.Machine

/-! The Display (spec/44_display.md). -/

/-- `CLS` has no faulting branch: it answers with the Display cleared and `next_pc` at its default (R180). -/
theorem exec_cls (s : State) : exec .cls s = .next (advance (dispClear s)) := rfl

/-- Settles O46: after the clear every pixel reads off, by `Display.get_dispClear`, and neither it nor `advance` writes
anything else but the program counter. -/
theorem clearTurnsEveryPixelOff : Obligations.ClearTurnsEveryPixelOff := by
  intro s
  refine ⟨_, exec_cls s, fun x y => ?_, fun r => ?_, pcGoesOnBy_of_pc_eq ?_, ?_, ?_, fun a => ?_, ?_⟩
  · rw [advance_display, Display.get_dispClear]
  · rw [getV_advance, getV_dispClear]
  · rw [advance_pc, dispClear_pc]
  · rw [advance_i, dispClear_i]
  · rw [advance_stack, dispClear_stack]
  · rw [advance_mem, dispClear_mem]
  · rw [advance_diags, dispClear_diags]

end Sys2Proof.Machine

namespace Sys2Proof.Machine

/-! Reset and boot (spec/70_reset_and_hazards.md). -/

/-- A state that differs in Memory alone is the old state once the old Memory is put back: the frame of everything that is
not Memory. -/
theorem setMem_with_old_mem (m : Memory) (s : State) : { setMem m s with mem := s.mem } = s := rfl

/-- Settles O53: by `loadRom_of_fits`, an induction over the image, the loader's answer is the state with another Memory,
which holds the image where it should and is otherwise the old one; `setMem_with_old_mem` says the rest. -/
theorem romBytesAreLoadedFrom0x200 : Obligations.RomBytesAreLoadedFrom0x200 := by
  intro image s hfit
  obtain ⟨m, hload, hbytes, hframe⟩ := loadRom_of_fits hfit s
  refine ⟨setMem m s, hload, fun k hk => ?_, hframe, setMem_with_old_mem m s⟩
  rw [setMem_mem]
  exact hbytes k hk

/-- Settles O50: the reset operation writes neither the Memory nor the Display field, so every byte and every pixel reads
as before. -/
theorem resetLeavesMemoryAndDisplay : Obligations.ResetLeavesMemoryAndDisplay := by
  intro s
  refine ⟨fun a => ?_, fun x y => ?_⟩
  · rw [resetEngine_mem]
  · rw [resetEngine_display]

end Sys2Proof.Machine

namespace Sys2Proof

/-! Encoding and decoding are inverse to each other (spec/30_encoding.md R80 to R90). -/

/-- A word `0NNN` whose `NNN` the `SYS` row does not except is none of the three literal words (R87). -/
theorem packNNN_ne_literals {nnn : Addr12} (h : nnn ∉ sysExcept) :
    packNNN 0x0#4 nnn ≠ 0x0000#16 ∧ packNNN 0x0#4 nnn ≠ 0x00E0#16 ∧ packNNN 0x0#4 nnn ≠ 0x00EE#16 := by
  have hne {lit : Addr12} (hl : lit ∈ sysExcept) : packNNN 0x0#4 nnn ≠ packNNN 0x0#4 lit := fun e => by
    have hnnn : nnn = lit := by simpa using congrArg nnnField e
    exact h (hnnn ▸ hl)
  exact ⟨hne (lit := 0x000#12) (by decide), hne (lit := 0x0E0#12) (by decide), hne (lit := 0x0EE#12) (by decide)⟩

/-- Group `0x0` reads a word `0NNN` that is none of the three literal ones as `SYS` (R87). -/
theorem decodeGroup0_packNNN {nnn : Addr12} (h : nnn ∉ sysExcept) :
    decodeGroup0 (packNNN 0x0#4 nnn) = .sys nnn := by
  obtain ⟨hnop, hcls, hret⟩ := packNNN_ne_literals h
  rw [decodeGroup0, if_neg hnop, if_neg hcls, if_neg hret, nnnField_packNNN]

/-- Group `0xF` reads a word whose low byte is none of the nine named ones as unrecognised (R88). -/
theorem decodeGroupF_packXNN {x : RegIdx} {nn : Byte} (h : nn ∉ fExcept) :
    decodeGroupF (packXNN 0xF#4 x nn) = .fUnknown x nn := by
  simp only [fExcept, List.mem_cons, List.not_mem_nil, or_false, not_or] at h
  simp [decodeGroupF, h]

/-- A well-formed instruction is what its word decodes to: the selector leads to the row's line and the fields are those
packed; only the two catch-all rows need that no more specific row takes their word. -/
theorem decodeWord_encode {i : Instr} (h : i.wellFormed = true) : decodeWord (encode i) = i := by
  cases i with
  | nop | cls | ret => decide
  | sys nnn =>
    have hn : nnn ∉ sysExcept := by simpa [Instr.wellFormed] using h
    exact (decodeWord_of_op_0 (opField_packNNN _ nnn)).trans (decodeGroup0_packNNN hn)
  | fUnknown x nn =>
    have hn : nn ∉ fExcept := by simpa [Instr.wellFormed] using h
    exact (decodeWord_of_op_F (opField_packXNN _ x nn)).trans (decodeGroupF_packXNN hn)
  | jp | call | ldI | unimplB => simp [encode, decodeWord]
  | seImm | sneImm | ldImm | addImm | unimplC | unimplE => simp [encode, decodeWord]
  | seReg | unimpl8 | unimpl9 | drw => simp [encode, decodeWord]
  | ldVxDt x | ldVxK x | ldDtVx x | ldStVx x | addIVx x | ldFVx x | ldBVx x | ldIVx x | ldVxI x =>
    simp [encode, decodeWord_of_op_F, decodeGroupF]

/-- Settles O2: `decodeWord_encode` for the word; the two bytes of Memory join to that word. -/
theorem decodingAnEncodingGivesItBack : Obligations.DecodingAnEncodingGivesItBack := by
  intro i rest h
  have hword := decodeWord_encode h
  exact ⟨hword, by rw [decode_encodeBytes, hword]⟩

/-- What group `0x0` makes of a word is well-formed and encodes to the word. -/
theorem decodeGroup0_spec {w : Word} (h : opField w = 0x0#4) :
    encode (decodeGroup0 w) = w ∧ (decodeGroup0 w).wellFormed = true := by
  have hw : packNNN 0x0#4 (nnnField w) = w := h ▸ packNNN_of_fields w
  unfold decodeGroup0
  split_ifs with hnop hcls hret
  · exact ⟨hnop.symm, rfl⟩
  · exact ⟨hcls.symm, rfl⟩
  · exact ⟨hret.symm, rfl⟩
  · refine ⟨hw, ?_⟩
    have hnot : nnnField w ∉ sysExcept := fun hmem => by
      simp only [sysExcept, List.mem_cons, List.not_mem_nil, or_false] at hmem
      rcases hmem with e | e | e <;> rw [e] at hw
      · exact hnop hw.symm
      · exact hcls hw.symm
      · exact hret hw.symm
    simpa [Instr.wellFormed] using hnot

/-- What group `0xF` makes of a word is well-formed and encodes to the word. -/
theorem decodeGroupF_spec {w : Word} (h : opField w = 0xF#4) :
    encode (decodeGroupF w) = w ∧ (decodeGroupF w).wellFormed = true := by
  have hw : packXNN 0xF#4 (xField w) (nnField w) = w := h ▸ packXNN_of_fields w
  by_cases hmem : nnField w ∈ fExcept
  · simp only [fExcept, List.mem_cons, List.not_mem_nil, or_false] at hmem
    rcases hmem with e | e | e | e | e | e | e | e | e <;>
      exact ⟨by simpa [decodeGroupF, e, encode] using hw, by simp [decodeGroupF, e, Instr.wellFormed]⟩
  · have hd : decodeGroupF w = .fUnknown (xField w) (nnField w) := by rw [← hw]; simpa using decodeGroupF_packXNN hmem
    rw [hd]
    exact ⟨hw, by simpa [Instr.wellFormed] using hmem⟩

/-- Every word is the encoding of the well-formed instruction it decodes to: selector by selector, the word is packed from
the fields the decoder reads. -/
theorem encode_decodeWord (w : Word) : encode (decodeWord w) = w ∧ (decodeWord w).wellFormed = true := by
  have hx := packXNN_of_fields w
  have hy := packXYN_of_fields w
  have hn := packNNN_of_fields w
  rcases nibble_cases (opField w) with h0 | h | h | h | h | h | h | h | h | h | h | h | h | h | h | hF
  · rw [decodeWord_of_op_0 h0]; exact decodeGroup0_spec h0
  on_goal 15 => rw [decodeWord_of_op_F hF]; exact decodeGroupF_spec hF
  all_goals
    rw [h] at hx hy hn
    simp [decodeWord, h, encode, Instr.wellFormed, hx, hy, hn]

/-- Settles O3, by `encode_decodeWord`. -/
theorem encodingADecodingGivesTheWordBack : Obligations.EncodingADecodingGivesTheWordBack := encode_decodeWord

/-! The opcode table (spec/30_encoding.md R89) -/

/-- The word's bits under the row's mask are the row's value, whatever its `except` lists say. -/
def maskedMatch (w : Word) (r : OpcodeRow) : Bool := decide (w &&& r.mask = r.value)

theorem maskedMatch_of_rowMatches {w : Word} {r : OpcodeRow} (h : rowMatches w r = true) : maskedMatch w r = true := by
  simp only [rowMatches, Bool.and_eq_true] at h
  exact h.1.1

/-- A check on two rows that no word can match `q` once its masked bits match `r`: the values differ under both masks, or
`r` is one word that `q` excepts, or `r` fixes a low byte that `q` excepts. -/
def excludes (r q : OpcodeRow) : Bool :=
  decide (r.value &&& q.mask ≠ q.value &&& r.mask) ||
  (decide (r.mask = 0xFFFF#16) && q.exceptWords.contains r.value) ||
  (decide (r.mask = 0xF0FF#16) && q.exceptLow.contains (nnField r.value))

theorem not_rowMatches_of_excludes {w : Word} {r q : OpcodeRow} (h : excludes r q = true) (hr : maskedMatch w r = true) :
    ¬rowMatches w q = true := by
  intro hq
  have hval : w &&& r.mask = r.value := of_decide_eq_true hr
  simp only [rowMatches, Bool.and_eq_true, decide_eq_true_eq, Bool.not_eq_true'] at hq
  obtain ⟨⟨hqval, hwords⟩, hlow⟩ := hq
  simp only [excludes, Bool.or_eq_true, Bool.and_eq_true, decide_eq_true_eq] at h
  rcases h with (hne | ⟨hmask, hexc⟩) | ⟨hmask, hexc⟩
  · refine hne ?_
    rw [← hval, ← hqval, BitVec.and_assoc, BitVec.and_assoc, BitVec.and_comm r.mask]
  · rw [hmask, and_word_mask] at hval
    rw [← hval, hwords] at hexc
    cases hexc
  · rw [hmask, and_selectors_mask] at hval
    rw [← hval, nnField_packXNN, hlow] at hexc
    cases hexc

/-- In the table's order, a row excludes every row after it. -/
theorem opcodeRows_exclude : opcodeRows.Pairwise fun r q => excludes r q = true := by decide

/-- In a list where an element that passes `q` keeps every later one from passing the stronger `p`, an element that passes
`p` is the only such one and the first to pass `q`. -/
theorem filter_and_find_of_pairwise {α : Type} {p q : α → Bool} (hpq : ∀ a, p a = true → q a = true) {r : α}
    (hr : p r = true) : ∀ {l : List α}, l.Pairwise (fun a b => q a = true → ¬p b = true) → r ∈ l →
      l.filter p = [r] ∧ l.find? q = some r
  | a :: l, hl, hmem => by
    obtain ⟨ha, hl⟩ := List.pairwise_cons.1 hl
    rcases List.mem_cons.1 hmem with rfl | hmem
    · have hnone : l.filter p = [] := List.filter_eq_nil_iff.2 fun b hb => ha b hb (hpq r hr)
      exact ⟨by rw [List.filter_cons_of_pos hr, hnone], List.find?_cons_of_pos (hpq r hr)⟩
    · have hq : ¬q a = true := fun hqa => ha r hmem hqa hr
      obtain ⟨hfilter, hfind⟩ := filter_and_find_of_pairwise hpq hr hl hmem
      exact ⟨by rw [List.filter_cons_of_neg fun hp => hq (hpq a hp), hfilter], by rw [List.find?_cons_of_neg hq, hfind]⟩

/-- A row that is one word. -/
theorem rowMatches_literal (name : String) (w : Word) : rowMatches w ⟨name, w, 0xFFFF#16, [], []⟩ = true := by
  simp [rowMatches, and_word_mask]

/-- A row without `except` lists that is known by its selector alone. -/
theorem rowMatches_selector {w : Word} (name : String) (op : Nibble) (h : opField w = op) :
    rowMatches w ⟨name, packNNN op 0#12, 0xF000#16, [], []⟩ = true := by
  simp [rowMatches, and_selector_mask, h]

/-- A row of group `0xF` that is known by its selector and its low byte. -/
theorem rowMatches_lowByte (name : String) (x : RegIdx) (nn : Byte) :
    rowMatches (packXNN 0xF#4 x nn) ⟨name, packXNN 0xF#4 0 nn, 0xF0FF#16, [], []⟩ = true := by
  simp [rowMatches, and_selectors_mask]

theorem rowMatches_sys {nnn : Addr12} (h : nnn ∉ sysExcept) :
    rowMatches (packNNN 0x0#4 nnn)
      ⟨"SYS", packNNN 0x0#4 0#12, 0xF000#16, [0x0000#16, 0x00E0#16, 0x00EE#16], []⟩ = true := by
  obtain ⟨hnop, hcls, hret⟩ := packNNN_ne_literals h
  simp [rowMatches, and_selector_mask, hnop, hcls, hret]

theorem rowMatches_fUnknown {x : RegIdx} {nn : Byte} (h : nn ∉ fExcept) :
    rowMatches (packXNN 0xF#4 x nn) ⟨"F_UNKNOWN", packNNN 0xF#4 0#12, 0xF000#16, [], fExcept⟩ = true := by
  simp [rowMatches, and_selector_mask, h]

open Laws in
/-- The table has a row for every instruction, which its word matches. -/
theorem exists_row {i : Instr} (h : i.wellFormed = true) :
    ∃ r ∈ opcodeRows, rowMatches (encode i) r = true ∧ r.name = i.rowName := by
  cases i with
  | nop => exact ⟨_, by decide, rowMatches_literal "NOP" 0x0000#16, rfl⟩
  | cls => exact ⟨_, by decide, rowMatches_literal "CLS" 0x00E0#16, rfl⟩
  | ret => exact ⟨_, by decide, rowMatches_literal "RET" 0x00EE#16, rfl⟩
  | sys nnn => exact ⟨_, by decide, rowMatches_sys (by simpa [Instr.wellFormed] using h), rfl⟩
  | jp nnn => exact ⟨_, by decide, rowMatches_selector "JP" 0x1#4 (SelectorOfEncoding.jp nnn), rfl⟩
  | call nnn => exact ⟨_, by decide, rowMatches_selector "CALL" 0x2#4 (SelectorOfEncoding.call nnn), rfl⟩
  | seImm x nn => exact ⟨_, by decide, rowMatches_selector "SE_IMM" 0x3#4 (SelectorOfEncoding.seImm x nn), rfl⟩
  | sneImm x nn => exact ⟨_, by decide, rowMatches_selector "SNE_IMM" 0x4#4 (SelectorOfEncoding.sneImm x nn), rfl⟩
  | seReg x y n => exact ⟨_, by decide, rowMatches_selector "SE_REG" 0x5#4 (SelectorOfEncoding.seReg x y n), rfl⟩
  | ldImm x nn => exact ⟨_, by decide, rowMatches_selector "LD_IMM" 0x6#4 (SelectorOfEncoding.ldImm x nn), rfl⟩
  | addImm x nn => exact ⟨_, by decide, rowMatches_selector "ADD_IMM" 0x7#4 (SelectorOfEncoding.addImm x nn), rfl⟩
  | unimpl8 x y n => exact ⟨_, by decide, rowMatches_selector "UNIMPL_8" 0x8#4 (SelectorOfEncoding.unimpl8 x y n), rfl⟩
  | unimpl9 x y n => exact ⟨_, by decide, rowMatches_selector "UNIMPL_9" 0x9#4 (SelectorOfEncoding.unimpl9 x y n), rfl⟩
  | ldI nnn => exact ⟨_, by decide, rowMatches_selector "LD_I" 0xA#4 (SelectorOfEncoding.ldI nnn), rfl⟩
  | unimplB nnn => exact ⟨_, by decide, rowMatches_selector "UNIMPL_B" 0xB#4 (SelectorOfEncoding.unimplB nnn), rfl⟩
  | unimplC x nn => exact ⟨_, by decide, rowMatches_selector "UNIMPL_C" 0xC#4 (SelectorOfEncoding.unimplC x nn), rfl⟩
  | drw x y n => exact ⟨_, by decide, rowMatches_selector "DRW" 0xD#4 (SelectorOfEncoding.drw x y n), rfl⟩
  | unimplE x nn => exact ⟨_, by decide, rowMatches_selector "UNIMPL_E" 0xE#4 (SelectorOfEncoding.unimplE x nn), rfl⟩
  | ldVxDt x => exact ⟨_, by decide, rowMatches_lowByte "LD_VX_DT" x 0x07#8, rfl⟩
  | ldVxK x => exact ⟨_, by decide, rowMatches_lowByte "LD_VX_K" x 0x0A#8, rfl⟩
  | ldDtVx x => exact ⟨_, by decide, rowMatches_lowByte "LD_DT_VX" x 0x15#8, rfl⟩
  | ldStVx x => exact ⟨_, by decide, rowMatches_lowByte "LD_ST_VX" x 0x18#8, rfl⟩
  | addIVx x => exact ⟨_, by decide, rowMatches_lowByte "ADD_I_VX" x 0x1E#8, rfl⟩
  | ldFVx x => exact ⟨_, by decide, rowMatches_lowByte "LD_F_VX" x 0x29#8, rfl⟩
  | ldBVx x => exact ⟨_, by decide, rowMatches_lowByte "LD_B_VX" x 0x33#8, rfl⟩
  | ldIVx x => exact ⟨_, by decide, rowMatches_lowByte "LD_I_VX" x 0x55#8, rfl⟩
  | ldVxI x => exact ⟨_, by decide, rowMatches_lowByte "LD_VX_I" x 0x65#8, rfl⟩
  | fUnknown x nn => exact ⟨_, by decide, rowMatches_fUnknown (by simpa [Instr.wellFormed] using h), rfl⟩

/-- Settles O4: the row of the decoded instruction matches the word; the rows exclude one another in the table's order, so
it is the only match and the first masked one. -/
theorem everyWordMatchesExactlyItsRow : Obligations.EveryWordMatchesExactlyItsRow := by
  intro w
  obtain ⟨hw, hwf⟩ := encode_decodeWord w
  obtain ⟨r, hmem, hr, hname⟩ := exists_row hwf
  rw [hw] at hr
  have hdisjoint : opcodeRows.Pairwise fun r q => maskedMatch w r = true → ¬rowMatches w q = true :=
    opcodeRows_exclude.imp not_rowMatches_of_excludes
  obtain ⟨hfilter, hfind⟩ :=
    filter_and_find_of_pairwise (p := rowMatches w) (q := maskedMatch w) (fun _ => maskedMatch_of_rowMatches) hr
      hdisjoint hmem
  refine ⟨by rw [hfilter, List.map_singleton, hname], ?_⟩
  exact (congrArg (Option.map OpcodeRow.name) hfind).trans (congrArg some hname)

/-- Settles O1: the decoder runs on each of the twelve closed words. -/
theorem specWordsDecodeToTheirInstructions : Obligations.SpecWordsDecodeToTheirInstructions := by
  unfold Obligations.SpecWordsDecodeToTheirInstructions
  decide

end Sys2Proof

namespace Sys2Proof.Machine

/-! What an instruction that answers leaves unchanged (spec/10_state.md R23, R32, R34; spec/20_memory.md R50): one lemma per
field, over every instruction. The loops are read off their inversion lemmas; every other meaning is one next state. -/

/-- The instruction is one of the two that write Memory: `LD B` and the dump (the table of spec/20_memory.md R50). -/
def writesMemory (i : Instr) : Bool :=
  match i with
  | .ldBVx _ | .ldIVx _ => true
  | _ => false

/-- The instruction is one of the two that write the Display: `CLS` and `DRW` (the table of spec/20_memory.md R50). -/
def writesDisplay (i : Instr) : Bool :=
  match i with
  | .cls | .drw _ _ _ => true
  | _ => false

theorem exec_next_mem {i : Instr} {s t : State} (hi : writesMemory i = false) (h : exec i s = .next t) :
    t.mem = s.mem := by
  cases i with
  | ldBVx | ldIVx => cases hi
  | ldVxI => obtain ⟨-, u, rfl, hmem, -⟩ := exec_ldVxI_next h; exact hmem
  | drw => obtain ⟨-, u, rfl, hflip⟩ := exec_drw_next h; exact hflip.mem
  | ret => obtain ⟨-, rfl⟩ | ⟨a, rest, -, rfl⟩ := exec_ret_next h <;> rfl
  | seImm | sneImm | seReg => cases h; exact skipIf_mem _ s
  | _ => cases h; rfl

theorem exec_next_display {i : Instr} {s t : State} (hi : writesDisplay i = false) (h : exec i s = .next t) :
    t.display = s.display := by
  cases i with
  | cls | drw => cases hi
  | ldBVx => obtain ⟨m, rfl⟩ := exec_ldBVx_next h; rfl
  | ldIVx => obtain ⟨-, u, rfl, -, -, -, hdisp, -⟩ := exec_ldIVx_next h; exact hdisp
  | ldVxI => obtain ⟨-, u, rfl, -, -, -, hdisp, -⟩ := exec_ldVxI_next h; exact hdisp
  | ret => obtain ⟨-, rfl⟩ | ⟨a, rest, -, rfl⟩ := exec_ret_next h <;> rfl
  | seImm | sneImm | seReg => cases h; exact skipIf_display _ s
  | _ => cases h; rfl

/-- Settles O19: the two fields' lemmas, at the instructions the statement does not except. -/
theorem memoryAndDisplayChangeOnlyWhereListed : Obligations.MemoryAndDisplayChangeOnlyWhereListed := by
  intro i s t h
  have hmem (hi : writesMemory i = false) : t.mem = s.mem := exec_next_mem hi h
  have hdisp (hi : writesDisplay i = false) : t.display = s.display := exec_next_display hi h
  cases i with
  | ldBVx | ldIVx => exact ⟨trivial, hdisp rfl⟩
  | cls | drw => exact ⟨hmem rfl, trivial⟩
  | _ => exact ⟨hmem rfl, hdisp rfl⟩

/-! The invariant -/

/-- The invariant is about Memory alone. -/
theorem inv_of_mem_eq {s t : State} (h : t.mem = s.mem) (hs : s.Inv) : t.Inv := by
  unfold State.Inv
  rwa [h]

/-- Every instruction keeps Memory canonical: the dump register by register, `LD B` byte by byte, and no other instruction
writes Memory. -/
theorem exec_keeps_inv {i : Instr} {s t : State} (hs : s.Inv) (h : exec i s = .next t) : t.Inv := by
  cases hi : writesMemory i with
  | false => exact inv_of_mem_eq (exec_next_mem hi h) hs
  | true =>
    cases i with
    | ldBVx =>
      obtain ⟨u, hu, rfl⟩ := finish_eq_next.1 h
      exact inv_of_mem_eq (advance_mem u) (storeDigits_keeps_inv hs hu)
    | ldIVx =>
      obtain ⟨u, hu, rfl⟩ := finish_eq_next.1 h
      exact inv_of_mem_eq (advance_mem u) (foldlM_keeps dumpReg_keeps_inv _ hs hu)
    | _ => cases hi

/-- Settles O12: the fetch reads only, and `exec_keeps_inv` is about every instruction it can lead to. -/
theorem stepKeepsTheMemoryCanonical : Obligations.StepKeepsTheMemoryCanonical := by
  intro s t hs h
  obtain ⟨w, -, hexec⟩ := step_eq_next h
  exact exec_keeps_inv hs hexec

/-- Settles O13: nothing is listed in Memory after reset, and the reset operation leaves Memory as it is. -/
theorem resetMeetsTheMemoryInvariant : Obligations.ResetMeetsTheMemoryInvariant :=
  ⟨State.reset_mem_wf, fun s => inv_of_mem_eq (resetEngine_mem s)⟩

/-! Registers, the index register and the call stack -/

/-- Settles O15: the writers write one register or, for the restore, a range of them, and the register is another. -/
theorem registersChangeOnlyWhereListed : Obligations.RegistersChangeOnlyWhereListed := by
  intro i s t r h hw
  cases i with
  | ldImm x | addImm x => cases h; exact getV_setV_of_ne (by simpa [writesReg] using hw) _ s
  | addIVx x => cases h; exact getV_setV_of_ne (by simpa [writesReg] using hw) _ _
  | drw x y n =>
    obtain ⟨-, u, rfl, hflip⟩ := exec_drw_next h
    have hr : r ≠ flagReg := by simpa [writesReg] using hw
    exact (hflip.regs r hr).trans (getV_setV_of_ne hr _ s)
  | ldVxI x =>
    obtain ⟨-, u, rfl, -, -, -, -, -, -, -, habove⟩ := exec_ldVxI_next h
    exact habove r (by simpa [writesReg] using hw)
  | ldBVx => obtain ⟨m, rfl⟩ := exec_ldBVx_next h; rfl
  | ldIVx => obtain ⟨-, u, rfl, hv, -⟩ := exec_ldIVx_next h; exact getV_eq_of_v hv r
  | ret => obtain ⟨-, rfl⟩ | ⟨a, rest, -, rfl⟩ := exec_ret_next h <;> rfl
  | seImm | sneImm | seReg => cases h; exact getV_skipIf r _ s
  | _ => cases h; rfl

/-- Settles O17: of the loops only the dump and the restore move `I`, and they are listed. -/
theorem indexChangesOnlyWhereListed : Obligations.IndexChangesOnlyWhereListed := by
  intro i s t h hw
  cases i with
  | ldI | addIVx | ldFVx | ldIVx | ldVxI => cases hw
  | ldBVx => obtain ⟨m, rfl⟩ := exec_ldBVx_next h; rfl
  | drw => obtain ⟨-, u, rfl, hflip⟩ := exec_drw_next h; exact hflip.i
  | ret => obtain ⟨-, rfl⟩ | ⟨a, rest, -, rfl⟩ := exec_ret_next h <;> rfl
  | seImm | sneImm | seReg => cases h; exact skipIf_i _ s
  | _ => cases h; rfl

/-- Settles O18: `CALL` pushes and `RET` pops, in both of its ways to answer; nothing else touches the stack. -/
theorem callStackChangesOnlyInCallAndRet : Obligations.CallStackChangesOnlyInCallAndRet := by
  intro i s t h
  cases i with
  | call => cases h; rfl
  | ret => obtain ⟨hs, rfl⟩ | ⟨a, rest, hs, rfl⟩ := exec_ret_next h <;> simp [hs]
  | ldBVx => obtain ⟨m, rfl⟩ := exec_ldBVx_next h; rfl
  | ldIVx => obtain ⟨-, u, rfl, -, -, hstack, -⟩ := exec_ldIVx_next h; exact hstack
  | ldVxI => obtain ⟨-, u, rfl, -, -, hstack, -⟩ := exec_ldVxI_next h; exact hstack
  | drw => obtain ⟨-, u, rfl, hflip⟩ := exec_drw_next h; exact hflip.stack
  | seImm | sneImm | seReg => cases h; exact skipIf_stack _ s
  | _ => cases h; rfl

/-- Settles O21: words add modulo `2^16`; `exec_next_pc` gives the words of every instruction but `RET`. -/
theorem pcArithmeticIsModulo65536 : Obligations.PcArithmeticIsModulo65536 := by
  intro i s t h
  have hseq (hi : assignsPc i = false) : t.pc.toNat = (s.pc.toNat + if skips i s then 4 else 2) % 65536 := by
    rw [exec_next_pc hi h]
    split <;> simp [BitVec.toNat_add, Nat.add_assoc]
  cases i with
  | jp | call => trivial
  | ret => obtain ⟨hs, rfl⟩ | ⟨a, rest, hs, rfl⟩ := exec_ret_next h <;> simp [hs, BitVec.toNat_add]
  | _ => exact hseq rfl

/-! The diagnostic output -/

/-- An instruction that answers reports nothing or one event. -/
theorem exec_next_diags {i : Instr} {s t : State} (h : exec i s = .next t) :
    t.diags = s.diags ∨ ∃ d, t.diags = s.diags ++ [d] := by
  cases i with
  | ldBVx => obtain ⟨m, rfl⟩ := exec_ldBVx_next h; exact .inl rfl
  | ldIVx => obtain ⟨-, u, rfl, -, -, -, -, hdiags, -⟩ := exec_ldIVx_next h; exact .inl hdiags
  | ldVxI => obtain ⟨-, u, rfl, -, -, -, -, hdiags, -⟩ := exec_ldVxI_next h; exact .inl hdiags
  | drw => obtain ⟨-, u, rfl, hflip⟩ := exec_drw_next h; exact .inl hflip.diags
  | ret =>
    obtain ⟨-, rfl⟩ | ⟨a, rest, -, rfl⟩ := exec_ret_next h
    · exact .inr ⟨_, rfl⟩
    · exact .inl rfl
  | seImm | sneImm | seReg => cases h; exact .inl (skipIf_diags _ s)
  | sys | unimpl8 | unimpl9 | unimplB | unimplC | unimplE => cases h; exact .inr ⟨_, rfl⟩
  | ldVxDt | ldVxK | ldDtVx | ldStVx | fUnknown => cases h; exact .inr ⟨_, rfl⟩
  | _ => cases h; exact .inl rfl

/-- Settles O22: `exec_next_diags`, for the instruction the step has fetched. -/
theorem atMostOneDiagnosticPerCycle : Obligations.AtMostOneDiagnosticPerCycle := by
  intro s t h
  obtain ⟨w, -, hexec⟩ := step_eq_next h
  exact exec_next_diags hexec

end Sys2Proof.Machine

namespace Sys2Proof.Machine

/-! The digits, the dump and the restore (spec/43_memory_address.md R164 to R166). -/

/-- The registers `0 .. X` are the first `X + 1`. -/
theorem ofNat_regIdx (r : RegIdx) : Fin.ofNat 16 r.val = r := Fin.ext (Nat.mod_eq_of_lt r.isLt)

/-- What a byte reads as after the three digits are stored from an address upward. -/
theorem Memory.read_write_three (m : Memory) (a b : Nat) (c₀ c₁ c₂ : Byte) :
    Memory.read (Memory.write (Memory.write (Memory.write m a c₀) (a + 1) c₁) (a + 2) c₂) b =
      if b = a + 2 then c₂ else if b = a + 1 then c₁ else if b = a then c₀ else Memory.read m b := by
  simp only [Memory.read_write]

/-- Settles O41: the three writes do not overlap, so each byte is its digit and every other byte is as before. -/
theorem bcdStoresTheThreeDigits : Obligations.BcdStoresTheThreeDigits := by
  intro x s hfit
  have hexec := congrArg finish (storeDigits_of_lt .fault (getV x s) hfit)
  refine ⟨_, (exec_ldBVx x s).trans hexec, ?_, ?_, ?_, fun b hb => ?_, fun r => rfl, rfl, pcGoesOnBy_of_pc_eq rfl, rfl,
    rfl, rfl⟩
  all_goals simp only [advance_mem, setMem_mem, Memory.read_write_three]
  · simp [hundreds_toNat]
  · simp [tens_toNat]
  · simp [ones_toNat]
  · rw [if_neg (by omega), if_neg (by omega), if_neg (by omega)]

/-- Settles O42: `dump_first` at all `X + 1` registers. -/
theorem dumpStoresTheRegisters : Obligations.DumpStoresTheRegisters := by
  intro x s hfit
  obtain ⟨u, hu, hv, hpc, hstack, hdisp, hdiags, hi, hbytes, hout⟩ :=
    dump_first .fault (s := s) (x.val + 1) (by omega) (by omega)
  refine ⟨advance u, (exec_ldIVx x s).trans (congrArg finish hu), fun r hr => ?_, hout, hi, getV_eq_of_v hv,
    pcGoesOnBy_of_pc_eq (congrArg (· + 2#16) hpc), hstack, hdisp, hdiags⟩
  exact (hbytes r.val (Nat.lt_succ_of_le hr)).trans (by rw [ofNat_regIdx])

/-- Settles O43: `restore_first` at all `X + 1` registers. -/
theorem restoreLoadsTheRegisters : Obligations.RestoreLoadsTheRegisters := by
  intro x s hfit
  obtain ⟨u, hu, hmem, hpc, hstack, hdisp, hdiags, hi, hin, habove⟩ :=
    restore_first .fault (s := s) (x.val + 1) (by omega) (by omega)
  exact ⟨advance u, (exec_ldVxI x s).trans (congrArg finish hu), fun r hr => hin r (Nat.lt_succ_of_le hr),
    fun r hr => habove r hr, hi, fun a => congrArg (Memory.read · a) hmem, pcGoesOnBy_of_pc_eq (congrArg (· + 2#16) hpc),
    hstack, hdisp, hdiags⟩

/-- `LD B` writes at rising addresses, so where one of its bytes is past the end of Memory the first such one faults. -/
theorem storeDigits_fault {s : State} (d : Byte) (h : Config.memSize ≤ s.i.toNat + 2) :
    storeDigits .fault d s = .error (.memOutOfRange (max s.i.toNat Config.memSize) s.pc) := by
  unfold storeDigits
  by_cases h₀ : s.i.toNat < Config.memSize
  · rw [writeByteUnder_of_lt .fault (addr := indexAddr s 0) h₀, ok_bind]
    by_cases h₁ : s.i.toNat + 1 < Config.memSize
    · rw [writeByteUnder_of_lt .fault (addr := indexAddr s 1) h₁, ok_bind,
        writeByteUnder_of_le .fault (addr := indexAddr s 2) h]
      simp only [indexAddr, setMem_pc, show max s.i.toNat Config.memSize = s.i.toNat + 2 by omega]
    · rw [writeByteUnder_of_le .fault (addr := indexAddr s 1) (Nat.not_lt.1 h₁)]
      simp only [indexAddr, setMem_pc, error_bind, show max s.i.toNat Config.memSize = s.i.toNat + 1 by omega]
  · rw [writeByteUnder_of_le .fault (addr := indexAddr s 0) (Nat.not_lt.1 h₀)]
    simp only [indexAddr, error_bind, show max s.i.toNat Config.memSize = s.i.toNat + 0 by omega]

theorem exec_ldBVx_fault (x : RegIdx) {s : State} (h : Config.memSize ≤ s.i.toNat + 2) :
    exec (.ldBVx x) s = .fault (.memOutOfRange (max s.i.toNat Config.memSize) s.pc) :=
  congrArg finish (storeDigits_fault (getV x s) h)

theorem exec_ldIVx_fault {x : RegIdx} {s : State} (h : Config.memSize ≤ s.i.toNat + x.val) :
    exec (.ldIVx x) s = .fault (.memOutOfRange (max s.i.toNat Config.memSize) s.pc) :=
  congrArg finish (dump_first_fault (s := s) (x.val + 1) (by omega) (by omega) (by omega))

theorem exec_ldVxI_fault {x : RegIdx} {s : State} (h : Config.memSize ≤ s.i.toNat + x.val) :
    exec (.ldVxI x) s = .fault (.memOutOfRange (max s.i.toNat Config.memSize) s.pc) :=
  congrArg finish (restore_first_fault (s := s) (x.val + 1) (by omega) (by omega) (by omega))

/-- Settles O44: the fault of each of the three. -/
theorem byteRangePastTheEndFaults : Obligations.ByteRangePastTheEndFaults :=
  fun x _ => ⟨exec_ldBVx_fault x, fun h => ⟨exec_ldIVx_fault h, exec_ldVxI_fault h⟩⟩

/-- Settles O45: a dump that answers fits, so the restore from the same address does too, and it reads the bytes the dump
stored. -/
theorem restoreUndoesTheDump : Obligations.RestoreUndoesTheDump := by
  intro x s t u h hmem hui
  obtain ⟨hfit, d, rfl, -, -, -, -, -, hdi, hstored, -⟩ := exec_ldIVx_next h
  have hufit : u.i.toNat + x.val < Config.memSize := by rw [hui]; omega
  obtain ⟨r, hr, hin, habove, hri, -⟩ := restoreLoadsTheRegisters x u hufit
  refine ⟨r, hr, fun q hq => ?_, habove, BitVec.eq_of_toNat_eq ?_⟩
  · calc getV q r
      _ = Memory.read d.mem (s.i.toNat + q.val) := by rw [hin q hq, hmem, hui, advance_mem]
      _ = getV (Fin.ofNat 16 q.val) s := hstored q.val (Nat.lt_succ_of_le hq)
      _ = getV q s := by rw [ofNat_regIdx]
  · rw [hri, advance_i, hdi, hui, Nat.add_assoc]

/-! Where a cycle can stop (spec/45_cycle.md R192, R193; spec/60_exceptions.md R204). -/

/-- The first address of a range past the end of Memory is out of range. -/
theorem outOfRangeFault_max (a : Nat) (pc : Word) :
    OutOfRangeFault pc (.memOutOfRange (max a Config.memSize) pc) :=
  .inl ⟨_, rfl, Nat.le_max_right _ _⟩

/-- Every instruction answers, or faults on an access out of range: the three over Memory by their ranges, the drawing by
`drawSprite_error`; the others have no access that can fault. -/
theorem exec_answers_or_faults (i : Instr) (s : State) :
    (∃ t, exec i s = .next t) ∨ ∃ f, exec i s = .fault f ∧ OutOfRangeFault s.pc f := by
  cases i with
  | ldBVx x =>
    by_cases hfit : s.i.toNat + 2 < Config.memSize
    · exact .inl ((bcdStoresTheThreeDigits x s hfit).imp fun _ => And.left)
    · exact .inr ⟨_, exec_ldBVx_fault x (Nat.not_lt.1 hfit), outOfRangeFault_max _ _⟩
  | ldIVx x =>
    by_cases hfit : s.i.toNat + x.val < Config.memSize
    · exact .inl ((dumpStoresTheRegisters x s hfit).imp fun _ => And.left)
    · exact .inr ⟨_, exec_ldIVx_fault (Nat.not_lt.1 hfit), outOfRangeFault_max _ _⟩
  | ldVxI x =>
    by_cases hfit : s.i.toNat + x.val < Config.memSize
    · exact .inl ((restoreLoadsTheRegisters x s hfit).imp fun _ => And.left)
    · exact .inr ⟨_, exec_ldVxI_fault (Nat.not_lt.1 hfit), outOfRangeFault_max _ _⟩
  | drw x y n =>
    rw [exec_drw]
    cases hdraw : drawSprite Params.chosen (getV x s).toNat (getV y s).toNat n.toNat s with
    | ok t => exact .inl ⟨_, finish_ok t⟩
    | error f => exact .inr ⟨f, finish_error f, drawSprite_error hdraw⟩
  | ret =>
    cases hs : s.stack with
    | nil => exact .inl ⟨_, exec_ret_of_nil hs⟩
    | cons a rest => exact .inl ⟨_, exec_ret_of_cons hs⟩
  | _ => exact .inl ⟨_, rfl⟩

/-- Settles O14: a fetch out of range is itself an access out of range, and a word fetched is an instruction that answers
or faults so. -/
theorem stepStopsOnlyOnAccessOutOfRange : Obligations.StepStopsOnlyOnAccessOutOfRange := by
  intro s
  by_cases hfetch : s.pc.toNat + 1 < Config.memSize
  · rw [step_of_fetch (fetchWord_of_lt hfetch)]
    exact exec_answers_or_faults _ s
  · exact .inr ⟨_, step_of_fetch_error (fetchWord_of_le (Nat.not_lt.1 hfetch)), outOfRangeFault_max _ _⟩

end Sys2Proof.Machine

namespace Sys2Proof.Machine

/-! Two runs of one instruction, from states that differ in something it does not read. -/

theorem setV_setV_self (r : RegIdx) (b c : Byte) (s : State) : setV r b (setV r c s) = setV r b s := by
  simp [setV]

theorem setV_comm {q r : RegIdx} (h : q ≠ r) (b c : Byte) (s : State) : setV q b (setV r c s) = setV r c (setV q b s) := by
  have hval : q.val ≠ r.val := fun e => h (Fin.ext e)
  simp [setV, Vector.set_comm _ _ hval]

theorem le_of_mem_regsUpTo {x r : RegIdx} (h : r ∈ regsUpTo x) : r ≤ x := by
  obtain ⟨k, hk, rfl⟩ := List.mem_map.1 h
  have hk := List.mem_range.1 hk
  exact Fin.le_def.2 (by rw [ofNat_val_of_lt (by omega)]; omega)

/-- A change of the state that no access sees: it leaves `pc`, `I`, the stack, Memory and the Display alone and commutes
with writing each of them. -/
structure Unseen (g : State → State) : Prop where
  pc : ∀ s, (g s).pc = s.pc
  i : ∀ s, (g s).i = s.i
  stack : ∀ s, (g s).stack = s.stack
  mem : ∀ s, (g s).mem = s.mem
  display : ∀ s, (g s).display = s.display
  jumpTo : ∀ a s, g (jumpTo a s) = jumpTo a (g s)
  setI : ∀ a s, g (setI a s) = setI a (g s)
  setStack : ∀ l s, g (setStack l s) = setStack l (g s)
  setMem : ∀ m s, g (setMem m s) = setMem m (g s)
  setDisplay : ∀ d s, g (setDisplay d s) = setDisplay d (g s)

/-- The second run ends as the first does, up to `g` in the next state. -/
def EndsAlike (g : State → State) (o o' : Host.Outcome State Fault Refusal) : Prop :=
  (∀ t, o = .next t → o' = .next (g t)) ∧ (∀ f, o = .fault f → o' = .fault f)

theorem endsAlike_next {g : State → State} {t t' : State} (h : g t = t') : EndsAlike g (.next t) (.next t') :=
  ⟨fun u hu => by cases hu; rw [h], fun f hf => by cases hf⟩

section
variable {g : State → State} (hg : Unseen g)
include hg

theorem Unseen.advance (s : State) : g (advance s) = Machine.advance (g s) := by
  show g (Machine.jumpTo (s.pc + 2#16) s) = Machine.jumpTo ((g s).pc + 2#16) (g s)
  rw [hg.jumpTo, hg.pc]

theorem Unseen.skipIf (c : Bool) (s : State) : g (skipIf c s) = Machine.skipIf c (g s) := by
  cases c with
  | false => exact hg.advance s
  | true =>
    show g (Machine.jumpTo (s.pc + 2#16 + 2#16) s) = Machine.jumpTo ((g s).pc + 2#16 + 2#16) (g s)
    rw [hg.jumpTo, hg.pc]

theorem storeDigits_map (m : MemOob) (d : Byte) (s : State) : storeDigits m d (g s) = (storeDigits m d s).map g := by
  have hwrite (addr : Nat) (b : Byte) (u : State) :=
    writeByteUnder_map m (hg.pc u) (hg.mem u) (hg.setMem · u) addr b
  unfold storeDigits indexAddr
  simp only [hg.i]
  rw [hwrite]
  cases writeByteUnder m (s.i.toNat + 0) (hundreds d) s with
  | error f => rfl
  | ok s₁ =>
    simp only [Except.map, ok_bind]
    rw [hwrite]
    cases writeByteUnder m (s.i.toNat + 1) (tens d) s₁ with
    | error f => rfl
    | ok s₂ => exact hwrite _ _ s₂

theorem dumpReg_map (m : MemOob) {r : RegIdx} (hr : ∀ u, getV r (g u) = getV r u) (s : State) :
    dumpReg m (g s) r = (dumpReg m s r).map g := by
  unfold dumpReg indexAddr
  rw [hg.i, hr, writeByteUnder_map m (hg.pc s) (hg.mem s) (hg.setMem · s)]
  cases writeByteUnder m (s.i.toNat + 0) (getV r s) s with
  | error f => rfl
  | ok u => exact congrArg Except.ok (hg.setI _ u).symm

theorem restoreReg_map (m : MemOob) {r : RegIdx} (hr : ∀ b u, g (setV r b u) = setV r b (g u)) (s : State) :
    restoreReg m (g s) r = (restoreReg m s r).map g := by
  unfold restoreReg indexAddr
  rw [hg.i, readByteUnder_map m (hg.pc s) (hg.mem s)]
  cases readByteUnder m (s.i.toNat + 0) s with
  | error f => rfl
  | ok b => exact congrArg Except.ok (by rw [hg.setI, hr])

theorem diagNop_map {s : State} (hreport : ∀ d, g (report d s) = report d (g s)) (w : Word) :
    EndsAlike g (diagNop w s) (diagNop w (g s)) :=
  endsAlike_next (by rw [hg.advance, hreport, hg.pc])

/-- An unseen change that keeps the registers the instruction reads, commutes with writing those it writes and with what
it reports, commutes with the instruction. -/
theorem exec_map (i : Instr) (s : State) (hread : ∀ r, readsReg i r = true → ∀ u, getV r (g u) = getV r u)
    (hwrite : ∀ r, writesReg i r = true → ∀ b u, g (setV r b u) = setV r b (g u))
    (hreport : ∀ d, g (report d s) = report d (g s)) : EndsAlike g (exec i s) (exec i (g s)) := by
  cases i with
  | nop => exact endsAlike_next (hg.advance s)
  | cls => exact endsAlike_next ((hg.advance _).trans (congrArg _ (hg.setDisplay _ s)))
  | ret =>
    cases hs : s.stack with
    | nil =>
      rw [exec_ret_of_nil hs, exec_ret_of_nil ((hg.stack s).trans hs)]
      exact endsAlike_next (by rw [hg.advance, hreport, hg.pc])
    | cons a rest =>
      rw [exec_ret_of_cons hs, exec_ret_of_cons ((hg.stack s).trans hs)]
      exact endsAlike_next (by rw [hg.jumpTo, hg.setStack])
  | jp nnn => exact endsAlike_next (hg.jumpTo _ s)
  | call nnn =>
    refine endsAlike_next ((hg.jumpTo _ _).trans (congrArg _ ?_))
    rw [hg.setStack, hg.pc, hg.stack]
  | seImm x nn | sneImm x nn =>
    refine endsAlike_next ((hg.skipIf _ s).trans ?_)
    rw [hread x (by simp [readsReg])]
  | seReg x y n =>
    refine endsAlike_next ((hg.skipIf _ s).trans ?_)
    rw [hread x (by simp [readsReg]), hread y (by simp [readsReg])]
  | ldImm x nn =>
    exact endsAlike_next ((hg.advance _).trans (congrArg _ (hwrite x (by simp [writesReg]) nn s)))
  | addImm x nn =>
    refine endsAlike_next ((hg.advance _).trans (congrArg _ ?_))
    rw [hwrite x (by simp [writesReg]), hread x (by simp [readsReg])]
  | ldI nnn => exact endsAlike_next ((hg.advance _).trans (congrArg _ (hg.setI _ s)))
  | addIVx x =>
    refine endsAlike_next ((hg.advance _).trans (congrArg _ ?_))
    have hflag := hwrite flagReg (by simp [writesReg])
    unfold setFlag
    rw [hflag, hg.setI, hg.i, hread x (by simp [readsReg])]
  | ldFVx x =>
    refine endsAlike_next ((hg.advance _).trans (congrArg _ ?_))
    rw [hg.setI, hread x (by simp [readsReg])]
  | drw x y n =>
    have hflag := hwrite flagReg (by simp [writesReg])
    rw [exec_drw, exec_drw, hread x (by simp [readsReg]), hread y (by simp [readsReg])]
    exact finish_map hg.advance
      (drawSprite_map _ hg.pc hg.i hg.mem hg.display (fun u d => hg.setDisplay d u) hflag _ _ _ s)
  | ldBVx x =>
    rw [exec_ldBVx, exec_ldBVx, hread x (by simp [readsReg])]
    exact finish_map hg.advance (storeDigits_map hg _ _ s)
  | ldIVx x =>
    refine finish_map hg.advance (foldlM_map g _ s fun u r hr => dumpReg_map hg _ (hread r ?_) u)
    simpa [readsReg] using le_of_mem_regsUpTo hr
  | ldVxI x =>
    refine finish_map hg.advance (foldlM_map g _ s fun u r hr => restoreReg_map hg _ (hwrite r ?_) u)
    simpa [writesReg] using le_of_mem_regsUpTo hr
  | sys | unimpl8 | unimpl9 | unimplB | unimplC | unimplE => exact diagNop_map hg hreport _
  | ldVxDt | ldVxK | ldDtVx | ldStVx | fUnknown => exact diagNop_map hg hreport _

end

theorem unseen_setV (r : RegIdx) (b : Byte) : Unseen (setV r b) := by
  constructor <;> intros <;> rfl

/-- `ADD I, Vx` has no faulting branch: the operand is read first, and the flag is of the new `I` (R162). -/
theorem exec_addIVx (x : RegIdx) (s : State) :
    exec (.addIVx x) s = .next (advance (setFlag (indexFlag (indexSum s.i (getV x s))) (setI (indexSum s.i (getV x s)) s))) :=
  rfl

/-- What a register of the range held before a restore makes no difference: where the bytes fit, the registers of the range
read Memory and the others are as before; elsewhere the fault names an address. -/
theorem exec_ldVxI_setV {x r : RegIdx} (hr : r ≤ x) (b : Byte) (s : State) :
    exec (.ldVxI x) (setV r b s) = exec (.ldVxI x) s := by
  by_cases hfit : s.i.toNat + x.val < Config.memSize
  · obtain ⟨u, hu, hmem, hpc, hstack, hdisp, hdiags, hi, hin, habove⟩ :=
      restore_first .fault (s := s) (x.val + 1) (by omega) (by omega)
    obtain ⟨u', hu', hmem', hpc', hstack', hdisp', hdiags', hi', hin', habove'⟩ :=
      restore_first .fault (s := setV r b s) (x.val + 1) (by omega) (by rw [setV_i]; omega)
    have hregs : ∀ q, getV q u' = getV q u := fun q => by
      by_cases hq : q.val < x.val + 1
      · exact (hin' q hq).trans (hin q hq).symm
      · have hqr : q ≠ r := fun e => hq (Nat.lt_succ_of_le (e ▸ hr))
        rw [habove' q (Nat.not_lt.1 hq), habove q (Nat.not_lt.1 hq), getV_setV_of_ne hqr]
    have hsame : u' = u := State.ext_getV hregs (BitVec.eq_of_toNat_eq (hi'.trans hi.symm)) (hpc'.trans hpc.symm)
      (hstack'.trans hstack.symm) (hmem'.trans hmem.symm) (hdisp'.trans hdisp.symm) (hdiags'.trans hdiags.symm)
    exact congrArg finish (hu'.trans (hsame ▸ hu.symm))
  · rw [exec_ldVxI_fault (Nat.not_lt.1 hfit), exec_ldVxI_fault (s := setV r b s) (Nat.not_lt.1 hfit), setV_i, setV_pc]

/-- What a register holds that an instruction overwrites without reading it makes no difference. -/
theorem exec_setV_of_overwritten {i : Instr} {r : RegIdx} (hread : readsReg i r = false) (hwrite : writesReg i r = true)
    (b : Byte) (s : State) : exec i (setV r b s) = exec i s := by
  cases i with
  | ldImm x nn =>
    obtain rfl : r = x := by simpa [writesReg] using hwrite
    rw [exec_ldImm, exec_ldImm, setV_setV_self]
  | addImm x nn => exact absurd (hread.symm.trans hwrite) Bool.false_ne_true
  | addIVx x =>
    obtain rfl : r = flagReg := by simpa [writesReg] using hwrite
    have hx : flagReg ≠ x := by simpa [readsReg] using hread
    rw [exec_addIVx, exec_addIVx, getV_setV_of_ne hx.symm, setV_i, ← (unseen_setV _ b).setI]
    unfold setFlag
    rw [setV_setV_self]
  | drw x y n =>
    obtain rfl : r = flagReg := by simpa [writesReg] using hwrite
    obtain ⟨hx, hy⟩ : flagReg ≠ x ∧ flagReg ≠ y := by simpa [readsReg] using hread
    rw [exec_drw, exec_drw, getV_setV_of_ne hx.symm, getV_setV_of_ne hy.symm]
    unfold drawSprite setFlag
    rw [setV_setV_self]
  | ldVxI x => exact exec_ldVxI_setV (by simpa [writesReg] using hwrite) b s
  | _ => cases hwrite

/-- Settles O16: a register that is not read either is overwritten, and its old value is lost, or is not written, and
setting it is an unseen change. -/
theorem registersNotReadDoNotMatter : Obligations.RegistersNotReadDoNotMatter := by
  intro i s r b hread
  cases hwrite : writesReg i r with
  | true => simp [exec_setV_of_overwritten hread hwrite]
  | false =>
    have hreads (q : RegIdx) (hq : readsReg i q = true) (u : State) : getV q (setV r b u) = getV q u :=
      getV_setV_of_ne (fun e => by rw [e, hread] at hq; cases hq) b u
    have hwrites (q : RegIdx) (hq : writesReg i q = true) (c : Byte) (u : State) :
        setV r b (setV q c u) = setV q c (setV r b u) :=
      setV_comm (fun e => by rw [← e, hwrite] at hq; cases hq) b c u
    exact exec_map (unseen_setV r b) i s hreads hwrites fun _ => rfl

/-- The state with `ds` in place of the first `n` events of its stream. -/
def replaceEvents (n : Nat) (ds : List Diagnostic) (s : State) : State := { s with diags := ds ++ s.diags.drop n }

theorem unseen_replaceEvents (n : Nat) (ds : List Diagnostic) : Unseen (replaceEvents n ds) := by
  constructor <;> intros <;> rfl

/-- Once a stream has `n` events, an event appended to it is not among the first `n`. -/
theorem replaceEvents_report {n : Nat} {s : State} (h : n ≤ s.diags.length) (ds : List Diagnostic) (d : Diagnostic) :
    replaceEvents n ds (report d s) = report d (replaceEvents n ds s) := by
  simp [replaceEvents, report, List.drop_append_of_le_length h]

/-- Settles O23: replacing the events there were before is an unseen change, and what is left of the stream after the
instruction is what the instruction has appended. -/
theorem diagnosticOutputIsNeverRead : Obligations.DiagnosticOutputIsNeverRead := by
  intro i s ds
  have hstart : replaceEvents s.diags.length ds s = { s with diags := ds } := by simp [replaceEvents]
  obtain ⟨hnext, hfault⟩ := exec_map (unseen_replaceEvents s.diags.length ds) i s (fun _ _ _ => rfl)
    (fun _ _ _ _ => rfl) (replaceEvents_report (Nat.le_refl _) ds)
  rw [hstart] at hnext hfault
  refine ⟨fun t ht => ⟨t.diags.drop s.diags.length, ?_, hnext t ht⟩, hfault⟩
  rcases exec_next_diags ht with h | ⟨d, h⟩ <;> simp [h]

end Sys2Proof.Machine

namespace Sys2Proof.Machine

/-! The no-ops (spec/40_decode_dispatch.md R111 to R123) -/

/-- A diagnostic no-op is `DiagNop` of its own word (R111). -/
theorem exec_diagNop {i : Instr} (h : isDiagNop i = true) (s : State) : exec i s = diagNop (encode i) s := by
  cases i with
  | sys | unimpl8 | unimpl9 | unimplB | unimplC | unimplE => rfl
  | ldVxDt | ldVxK | ldDtVx | ldStVx | fUnknown => rfl
  | _ => cases h

/-- Settles O27: the word fetched is the encoding of the instruction it decodes to, which is the word reported. -/
theorem stepReportsTheFetchedWord : Obligations.StepReportsTheFetchedWord := by
  intro s w hfetch hdiag
  rw [step_of_fetch hfetch, exec_diagNop hdiag, (encode_decodeWord w).1]
  rfl

/-- Settles O24: `NOP` commits the default `next_pc` alone. -/
theorem nopOnlyAdvances : Obligations.NopOnlyAdvances := fun _ => rfl

/-- Settles O25: each of the five is a diagnostic no-op, which reports and goes on. -/
theorem unimplementedFamiliesAreDiagnosticNoOps : Obligations.UnimplementedFamiliesAreDiagnosticNoOps := by
  intro nnn x y n nn s i hi
  have hdiag : isDiagNop i = true := by
    simp only [List.mem_cons, List.not_mem_nil, or_false] at hi
    rcases hi with rfl | rfl | rfl | rfl | rfl <;> rfl
  exact ⟨_, exec_diagNop hdiag s, fun r => rfl, rfl, rfl, fun a => rfl, rfl, pcGoesOnBy_of_pc_eq rfl, s.pc, rfl⟩

/-- Settles O26: each of the six is a diagnostic no-op. -/
theorem outOfScopeWordsAreDiagnosticNoOps : Obligations.OutOfScopeWordsAreDiagnosticNoOps := by
  intro x nn s i hi
  have hdiag : isDiagNop i = true := by
    simp only [List.mem_cons, List.not_mem_nil, or_false] at hi
    rcases hi with rfl | rfl | rfl | rfl | rfl | rfl <;> rfl
  exact exec_diagNop hdiag s

/-! Calls, returns and skips (spec/41_flow_control.md R131 to R135) -/

/-- `CALL` on the unbounded stack has no faulting branch (R131). -/
theorem exec_call (nnn : Addr12) (s : State) :
    exec (.call nnn) s = .next (jumpTo (zext16 nnn) (setStack (s.pc :: s.stack) s)) := rfl

/-- Settles O29: extending the target keeps its number; the push and the jump write the stack and `pc` alone. -/
theorem callPushesItsOwnAddressAndJumps : Obligations.CallPushesItsOwnAddressAndJumps :=
  fun nnn s => ⟨_, exec_call nnn s, rfl, zext16_toNat nnn, fun _ => rfl, rfl, fun _ => rfl, rfl, rfl⟩

/-- Settles O30: the two ways `RET` answers, by whether the stack has an entry. -/
theorem retResumesAfterTheCall : Obligations.RetResumesAfterTheCall := by
  intro s
  cases hs : s.stack with
  | nil =>
    exact ⟨_, exec_ret_of_nil hs, fun _ => rfl, rfl, fun _ => rfl, rfl, fun a rest h => (by cases h),
      fun _ => ⟨hs, pcGoesOnBy_of_pc_eq rfl, s.pc, rfl⟩⟩
  | cons a rest =>
    refine ⟨_, exec_ret_of_cons hs, fun _ => rfl, rfl, fun _ => rfl, rfl, fun b rest' h => ?_, fun h => by cases h⟩
    cases h
    refine ⟨rfl, fun hlt => ?_, rfl⟩
    rw [jumpTo_pc, BitVec.toNat_add]
    exact Nat.mod_eq_of_lt hlt

/-- Settles O31: `RET` on an empty stack is a report and the default `next_pc`. -/
theorem retOnEmptyStackReportsItsAddress : Obligations.RetOnEmptyStackReportsItsAddress :=
  fun _ hs => exec_ret_of_nil hs

/-- Settles O34: the entry `RET` finds is the one the call has pushed. -/
theorem retUndoesTheCall : Obligations.RetUndoesTheCall := by
  intro nnn s t u hcall hu
  rw [exec_call] at hcall
  cases hcall
  exact ⟨_, exec_ret_of_cons (hu : u.stack = s.pc :: s.stack), rfl, rfl⟩

/-- Settles O35: the jump replaces `pc` by the word of the same number, so by itself. -/
theorem jumpToItselfIsFixedPoint : Obligations.JumpToItselfIsFixedPoint := by
  intro nnn s hfetch hpc
  have htarget : zext16 nnn = s.pc := BitVec.eq_of_toNat_eq (by rw [zext16_toNat, hpc])
  rw [step_of_fetch hfetch, decodeWord_encode rfl, exec_jp, htarget]
  rfl

/-- A skip goes on by 4 on a true comparison and by 2 on a false one, and writes `pc` alone. -/
theorem skipIf_frame (c : Bool) (s : State) :
    (c = true → PcGoesOnBy 4 s (skipIf c s)) ∧ (c = false → PcGoesOnBy 2 s (skipIf c s)) ∧
    SameRegisters s (skipIf c s) ∧ (skipIf c s).i = s.i ∧ (skipIf c s).stack = s.stack ∧ SameMemory s (skipIf c s) ∧
    (skipIf c s).display = s.display ∧ (skipIf c s).diags = s.diags := by
  refine ⟨?_, ?_, fun r => getV_skipIf r c s, skipIf_i c s, skipIf_stack c s, fun a => by rw [skipIf_mem],
    skipIf_display c s, skipIf_diags c s⟩
  · rintro rfl
    exact pcGoesOnBy_of_pc_eq (BitVec.add_assoc _ _ _)
  · rintro rfl
    exact pcGoesOnBy_of_pc_eq rfl

theorem exec_seImm (x : RegIdx) (nn : Byte) (s : State) : exec (.seImm x nn) s = .next (skipIf (getV x s == nn) s) := rfl

theorem exec_sneImm (x : RegIdx) (nn : Byte) (s : State) : exec (.sneImm x nn) s = .next (skipIf (getV x s != nn) s) := rfl

theorem exec_seReg (x y : RegIdx) (n : Nibble) (s : State) :
    exec (.seReg x y n) s = .next (skipIf (getV x s == getV y s) s) := rfl

/-- Settles O32: `skipIf_frame` at the two comparisons. -/
theorem immediateSkipsFollowTheComparison : Obligations.ImmediateSkipsFollowTheComparison := by
  intro x nn s
  obtain ⟨heq, hne, hframe⟩ := skipIf_frame (getV x s == nn) s
  obtain ⟨hne', heq', hframe'⟩ := skipIf_frame (getV x s != nn) s
  exact ⟨⟨_, exec_seImm x nn s, fun h => heq (beq_iff_eq.2 h), fun h => hne (beq_eq_false_iff_ne.2 h), hframe⟩,
    ⟨_, exec_sneImm x nn s, fun h => hne' (bne_iff_ne.2 h), fun h => heq' (bne_eq_false_iff_eq.2 h), hframe'⟩⟩

/-- Settles O33: `skipIf_frame` at the comparison of the two registers; the low nibble is not looked at. -/
theorem registerSkipIgnoresTheLowNibble : Obligations.RegisterSkipIgnoresTheLowNibble := by
  intro x y n s
  obtain ⟨heq, hne, hframe⟩ := skipIf_frame (getV x s == getV y s) s
  exact ⟨_, exec_seReg x y n s, fun h => heq (beq_iff_eq.2 h), fun h => hne (beq_eq_false_iff_ne.2 h), hframe⟩

/-! The index register (spec/43_memory_address.md R162, R163) -/

theorem indexFlag_of_le {a : Word} (h : 0xFFF ≤ a.toNat) : indexFlag a = 1#8 := if_pos h

theorem indexFlag_of_lt {a : Word} (h : a.toNat < 0xFFF) : indexFlag a = 0#8 := if_neg (Nat.not_le.2 h)

/-- Settles O39: the sum of words is the sum modulo `2^16`, and the flag is read off the new `I`. -/
theorem addIndexSetsTheThresholdFlag : Obligations.AddIndexSetsTheThresholdFlag := by
  intro x s
  refine ⟨_, exec_addIVx x s, indexSum_toNat _ _, fun h => ?_, fun h => ?_, fun r hr => getV_setV_of_ne hr _ _,
    pcGoesOnBy_of_pc_eq rfl, rfl, fun _ => rfl, rfl, rfl⟩
  · exact (getV_setV_self _ _ _).trans (indexFlag_of_le h)
  · exact (getV_setV_self _ _ _).trans (indexFlag_of_lt h)

/-- `LD F, Vx` has no faulting branch: it computes an address and accesses no Memory (R163). -/
theorem exec_ldFVx (x : RegIdx) (s : State) : exec (.ldFVx x) s = .next (advance (setI (glyphAddr (getV x s)) s)) := rfl

/-- Settles O40: the address stays below `2^16` for every byte, and `advance_setI_frame` says the rest. -/
theorem fontLookupComputesTheGlyphAddress : Obligations.FontLookupComputesTheGlyphAddress :=
  fun x s => ⟨_, exec_ldFVx x s, glyphAddr_toNat _, advance_setI_frame _ s⟩

end Sys2Proof.Machine

namespace Sys2Proof.Machine

/-! Drawing (spec/44_display.md R182) -/

/-- A sprite that fits is drawn by `DRW`: its cells are flipped from the state with `VF` reset, then `next_pc` commits. -/
theorem exec_drw_of_fits {x y : RegIdx} {n : Nibble} {s : State}
    (hfit : SpriteFits s (getV x s).toNat (getV y s).toNat n.toNat) :
    ∃ u, exec (.drw x y n) s = .next (advance u) ∧
      Flipped (spriteCovers s (getV x s).toNat (getV y s).toNat n.toNat) (setFlag 0#8 s) u := by
  obtain ⟨u, hu, hflip⟩ := drawSprite_of_fits Params.chosen hfit
  exact ⟨u, congrArg finish hu, hflip⟩

/-- Settles O47: `Flipped` says it of the state with `VF` reset, which differs from the first in `VF` alone. -/
theorem drawFlipsExactlyTheSpritePixels : Obligations.DrawFlipsExactlyTheSpritePixels := by
  intro x y n s hfit
  obtain ⟨u, hu, hflip⟩ := exec_drw_of_fits hfit
  refine ⟨advance u, hu, hflip.pixel, hflip.hit, fun hmiss => ?_, fun r hr => ?_, hflip.i,
    pcGoesOnBy_of_pc_eq (congrArg (· + 2#16) hflip.pc), hflip.stack, fun a => congrArg (Memory.read · a) hflip.mem,
    hflip.diags⟩
  · exact (hflip.miss hmiss).trans (getV_setV_self _ _ _)
  · exact (hflip.regs r hr).trans (getV_setV_of_ne hr _ _)

/-- Settles O48: the drawing that answers fits by `exec_drw_next`; one that does not answer faults out of range, since
`DRW` has no third way to end. -/
theorem drawCompletesExactlyWhereItFits : Obligations.DrawCompletesExactlyWhereItFits := by
  intro x y n s
  have hnext : (∃ t, exec (.drw x y n) s = .next t) ↔ SpriteFits s (getV x s).toNat (getV y s).toNat n.toNat :=
    ⟨fun ⟨_, h⟩ => (exec_drw_next h).1, fun hfit => (exec_drw_of_fits hfit).imp' advance fun _ => And.left⟩
  exact ⟨hnext, fun hfit => (exec_answers_or_faults (.drw x y n) s).resolve_left (mt hnext.1 hfit)⟩

/-! A sprite is read from Memory at `I` and from nothing else. -/

theorem spriteRow_congr {s u : State} (hmem : u.mem = s.mem) (hi : u.i = s.i) (r : Nat) : spriteRow u r = spriteRow s r := by
  simp only [spriteRow, indexAddr, hmem, hi]

theorem spriteFits_congr {s u : State} (hmem : u.mem = s.mem) (hi : u.i = s.i) {px py n : Nat}
    (h : SpriteFits s px py n) : SpriteFits u px py n := by
  intro r hr
  obtain ⟨haddr, hbits⟩ := h r hr
  rw [spriteRow_congr hmem hi]
  exact ⟨by rwa [indexAddr, hi], hbits⟩

theorem spriteCovers_congr {s u : State} (hmem : u.mem = s.mem) (hi : u.i = s.i) (px py n : Nat) :
    spriteCovers u px py n = spriteCovers s px py n := by
  funext x y
  rw [spriteCovers, spriteRow_congr hmem hi, spriteCovers]

/-- Of a pixel that is on after a flip: it was under the sprite exactly when it was off before. -/
theorem flipped_iff_was_off {before cov : Bool} (h : (before ^^ cov) = true) : cov = true ↔ before = false := by
  revert before cov
  decide

/-- Settles O49: the second draw flips the same cells of the first one's Display, so it flips each of them back; one of them
was on before the second draw where the first has turned it on. -/
theorem drawingTwiceRestoresTheDisplay : Obligations.DrawingTwiceRestoresTheDisplay := by
  intro x y n s t u hdraw hmem hi hdisp hx hy
  obtain ⟨hfit, d, rfl, hfirst⟩ := exec_drw_next hdraw
  have hmem' : u.mem = s.mem := hmem.trans hfirst.mem
  have hi' : u.i = s.i := hi.trans hfirst.i
  have hfit' : SpriteFits u (getV x u).toNat (getV y u).toNat n.toNat := by
    rw [hx, hy]; exact spriteFits_congr hmem' hi' hfit
  obtain ⟨r, hr, hpixel, hhit, hmiss, -⟩ := drawFlipsExactlyTheSpritePixels x y n u hfit'
  rw [hx, hy, spriteCovers_congr hmem' hi'] at hpixel
  have hcollides : SpriteCollides u (getV x u).toNat (getV y u).toNat n.toNat ↔
      ∃ px py, Display.get s.display px py = false ∧ Display.get (advance d).display px py = true := by
    unfold SpriteCollides
    rw [hx, hy, spriteCovers_congr hmem' hi', hdisp]
    refine exists_congr fun px => exists_congr fun py => and_congr_left fun hon => ?_
    exact flipped_iff_was_off ((hfirst.pixel px py).symm.trans hon)
  refine ⟨r, hr, Display.ext_get fun px py => ?_, fun h => hhit (hcollides.2 h), fun h => hmiss (mt hcollides.1 h)⟩
  calc Display.get r.display px py
    _ = (Display.get d.display px py ^^ spriteCovers s (getV x s).toNat (getV y s).toNat n.toNat px.val py.val) := by
      rw [hpixel, hdisp, advance_display]
    _ = Display.get s.display px py := by rw [hfirst.pixel, Bool.xor_assoc, Bool.xor_self, Bool.xor_false]; rfl

end Sys2Proof.Machine

namespace Sys2Proof.Machine

/-! Accesses out of range, and the fetch (spec/20_memory.md R56, R58, R63; spec/45_cycle.md R190, R193) -/

theorem not_on_grid {x y : Nat} (h : Config.dispW ≤ x ∨ Config.dispH ≤ y) : ¬(x < Config.dispW ∧ y < Config.dispH) := by
  omega

/-- Settles O7: under `FAULT` each call of the interfaces faults where it is out of range. -/
theorem accessOutOfRangeFaults : Obligations.AccessOutOfRangeFaults :=
  fun s b p => ⟨fun _ ha => ⟨readByte_of_le ha s, writeByte_of_le ha b s⟩, fun _ ha => readWord_of_le ha s,
    fun _ _ hxy => ⟨dispGet_off_grid (not_on_grid hxy) s, dispSet_off_grid (not_on_grid hxy) p s⟩⟩

/-- Settles O57: in range no access sees the policy, out of range it is what the policy answers. -/
theorem accessOutOfRangeFollowsThePolicy : Obligations.AccessOutOfRangeFollowsThePolicy := by
  intro p d s b v
  refine ⟨fun a m ha => ⟨?_, ?_⟩, fun a ha => ⟨?_, ?_⟩, fun a m ha => ?_, fun a ha => ?_,
    fun x y e hxy => ⟨?_, ?_⟩, fun x y hxy => ⟨?_, ?_⟩⟩
  · exact (readByteUnder_of_lt m ha s).trans (readByte_of_lt ha s).symm
  · exact (writeByteUnder_of_lt m ha b s).trans (writeByte_of_lt ha b s).symm
  · exact readByteUnder_of_le (.answers p) ha s
  · exact writeByteUnder_of_le (.answers p) ha b s
  · exact (readWordUnder_of_lt m ha s).trans (readWord_of_lt ha s).symm
  · exact readWordUnder_of_le (.answers p) ha s
  · exact (dispGetUnder_of_lt e hxy.1 hxy.2 s).trans (dispGet_of_lt hxy.1 hxy.2 s).symm
  · exact (dispSetUnder_of_lt e hxy.1 hxy.2 v s).trans (dispSet_of_lt hxy.1 hxy.2 v s).symm
  · exact dispGetUnder_off_grid (.answers d) (not_on_grid hxy) s
  · exact dispSetUnder_off_grid (.answers d) (not_on_grid hxy) v s

/-- Settles O11: the fetch is a word read at `pc`, and a faulting fetch runs no handler. -/
theorem fetchPastTheEndFaults : Obligations.FetchPastTheEndFaults :=
  fun _ h => step_of_fetch_error (fetchWord_of_le h)

/-- Settles O10: the two bytes read are the word fetched, and `decode` reads its instruction. -/
theorem stepRunsTheDecodedInstruction : Obligations.StepRunsTheDecodedInstruction := by
  intro s hi lo i hhi hlo hdecode
  have hword : decodeWord (joinWord hi lo) = i := by cases hdecode; rfl
  rw [← hword]
  exact step_of_fetch (readWord_of_bytes hhi hlo)

/-- Settles O8: the second write is at another address, so both bytes are read back. -/
theorem storedBytesAreTheNextFetch : Obligations.StoredBytesAreTheNextFetch := by
  intro hi lo s hpc
  refine ⟨_, _, writeByte_of_lt (by omega) hi s, writeByte_of_lt hpc lo _, ?_⟩
  have hfetch : ∀ u : State, u.pc = s.pc →
      u.mem = Memory.write (Memory.write s.mem s.pc.toNat hi) (s.pc.toNat + 1) lo →
      fetchWord u = .ok (joinWord hi lo) := by
    intro u hupc humem
    rw [fetchWord_of_lt (by rwa [hupc]), hupc, humem]
    simp [Memory.read_write]
  exact ⟨hfetch _ rfl rfl, joinWord_toNat hi lo, step_of_fetch (hfetch _ rfl rfl)⟩

/-- Settles O56: the bound is compared with the depth of the stack, and without one there is nothing to compare. -/
theorem boundedStackFaultsWhenFull : Obligations.BoundedStackFaultsWhenFull :=
  fun _ _ _ => ⟨fun h => if_pos h, fun h => if_neg (Nat.not_lt.2 h), rfl⟩

/-! Reset and boot (spec/70_reset_and_hazards.md R230 to R238) -/

/-- Settles O51: the reset operation writes constants, which a second one writes again. -/
theorem resetSetsTheCoreState : Obligations.ResetSetsTheCoreState :=
  fun s => ⟨rfl, resetEngine_stack s, fun r => getV_resetEngine r s, rfl, rfl⟩

/-- Settles O52: nothing is listed in Memory at reset, and the Display is a copy of one pixel. -/
theorem powerUpStateIsClear : Obligations.PowerUpStateIsClear :=
  ⟨rfl, rfl, rfl, fun _ ha => readByte_of_lt ha State.reset, fun x y => Display.get_dispClear State.reset x y, rfl⟩

/-- Settles O54: `loadFont_ok` puts byte `j` of the table at `0x50 + j`, and byte `k` of glyph `c` is byte `5 c + k`. -/
theorem fontGlyphsAreLoadedWhereLookupPoints : Obligations.FontGlyphsAreLoadedWhereLookupPoints := by
  intro s
  obtain ⟨m, hload, hbytes, hout⟩ := loadFont_ok s
  refine ⟨setMem m s, hload, fun c k => ?_, hout, setMem_with_old_mem m s⟩
  have hindex : c.val * 5 + k.val < fontTable.length := by
    have : fontTable.length = 80 := rfl
    omega
  have haddr : (glyphAddr (BitVec.ofNat 8 c.val)).toNat + k.val = Config.fontBase + (c.val * 5 + k.val) := by
    rw [glyphAddr_toNat, BitVec.toNat_ofNat, Nat.mod_eq_of_lt (by omega), Nat.add_assoc]
  rw [setMem_mem, haddr, hbytes _ hindex, List.getElem?_eq_getElem hindex]

/-- Settles O55: the loaders store through Memory alone; the ROM's first two bytes are at `0x200`, where the reset puts the
program counter. -/
theorem bootedMachineRunsTheFirstWord : Obligations.BootedMachineRunsTheFirstWord := by
  intro hi lo rest s hfit
  obtain ⟨font, hfont, -⟩ := loadFont_ok s
  obtain ⟨m, hrom, hbytes, -⟩ := loadRom_of_fits (image := hi :: lo :: rest) hfit (setMem font s)
  have hboot : boot (hi :: lo :: rest) s = .ok (resetEngine (setMem m (setMem font s))) := by
    rw [boot, hfont, ok_bind, hrom]
    rfl
  have hpc : Config.pcReset.toNat + 1 < Config.memSize := by decide
  refine ⟨_, hboot, rfl, rfl, step_of_fetch ((fetchWord_of_lt hpc).trans ?_)⟩
  have hhi : Memory.read m 0x200 = hi := hbytes 0 (by simp)
  have hlo : Memory.read m 0x201 = lo := hbytes 1 (by simp)
  exact congrArg₂ (fun a b => Except.ok (joinWord a b)) hhi hlo

/-- Settles O60: the bytes placed fill Memory exactly, and neither they nor the Display touch what the reset sets. -/
theorem powerUpHoldsTheGivenContents : Obligations.PowerUpHoldsTheGivenContents := by
  intro memInit dispInit
  have hlen : ((List.range Config.memSize).map memInit).length = Config.memSize := by simp
  obtain ⟨m, hplace, hbytes, -⟩ := placeBytes_of_fits ((List.range Config.memSize).map memInit) 0 State.reset
    (by rw [hlen, Nat.zero_add])
  have hinv := placeBytes_keeps_inv 0 ((List.range Config.memSize).map memInit) State.reset_mem_wf
  unfold powerUp
  rw [hplace] at hinv ⊢
  refine ⟨fun a ha => ?_, fun x y => ?_, inv_of_mem_eq (setDisplay_mem _ _) hinv, rfl, rfl⟩
  · have hread := hbytes a (by rw [hlen]; exact ha)
    rw [Nat.zero_add, List.getElem_map, List.getElem_range] at hread
    rw [readByte_of_lt ha, setDisplay_mem, setMem_mem, hread]
  · simp [Display.get]

/-! The open parameters (spec/00_scope.md R5; spec/60_exceptions.md R204) -/

theorem storeDigits_agree (m : MemOob) {d : Byte} {s t : State} (h : storeDigits .fault d s = .ok t) :
    storeDigits m d s = .ok t := by
  obtain ⟨s₁, h₁, h⟩ := bind_eq_ok.1 h
  obtain ⟨s₂, h₂, h₃⟩ := bind_eq_ok.1 h
  rw [storeDigits, writeByteUnder_of_ok m h₁, ok_bind, writeByteUnder_of_ok m h₂, ok_bind, writeByteUnder_of_ok m h₃]

theorem dumpReg_agree (m : MemOob) (s : State) (r : RegIdx) (t : State) (h : dumpReg .fault s r = .ok t) :
    dumpReg m s r = .ok t := by
  obtain ⟨u, hu, h⟩ := bind_eq_ok.1 h
  rw [dumpReg, writeByteUnder_of_ok m hu, ok_bind]
  exact h

theorem restoreReg_agree (m : MemOob) (s : State) (r : RegIdx) (t : State) (h : restoreReg .fault s r = .ok t) :
    restoreReg m s r = .ok t := by
  obtain ⟨b, hb, h⟩ := bind_eq_ok.1 h
  rw [restoreReg, readByteUnder_of_ok m hb, ok_bind]
  exact h

theorem dispGetUnder_of_ok (d : DispOob) {x y : Nat} {s : State} {b : Bool} (h : dispGetUnder .fault x y s = .ok b) :
    dispGetUnder d x y s = .ok b := by
  by_cases hgrid : x < Config.dispW ∧ y < Config.dispH
  · rw [← h, dispGetUnder_of_lt d hgrid.1 hgrid.2, dispGetUnder_of_lt .fault hgrid.1 hgrid.2]
  · rw [dispGetUnder_off_grid .fault hgrid] at h; cases h

theorem dispSetUnder_of_ok (d : DispOob) {x y : Nat} {b : Bool} {s t : State} (h : dispSetUnder .fault x y b s = .ok t) :
    dispSetUnder d x y b s = .ok t := by
  by_cases hgrid : x < Config.dispW ∧ y < Config.dispH
  · rw [← h, dispSetUnder_of_lt d hgrid.1 hgrid.2, dispSetUnder_of_lt .fault hgrid.1 hgrid.2]
  · rw [dispSetUnder_off_grid .fault hgrid] at h; cases h

theorem drawBit_agree (d : DispOob) {px py r : Nat} {b : Byte} (s : State) (c : Nat) (t : State)
    (h : drawBit .fault px py r b s c = .ok t) : drawBit d px py r b s c = .ok t := by
  cases hb : spriteBit b c with
  | false => rwa [drawBit_of_clear _ hb] at h ⊢
  | true =>
    rw [drawBit, if_pos hb] at h ⊢
    obtain ⟨old, hget, h⟩ := bind_eq_ok.1 h
    obtain ⟨u, hset, h⟩ := bind_eq_ok.1 h
    rw [dispGetUnder_of_ok d hget, ok_bind, dispSetUnder_of_ok d hset, ok_bind]
    exact h

theorem drawSprite_agree (p : Params) {px py n : Nat} {s t : State} (h : drawSprite Params.chosen px py n s = .ok t) :
    drawSprite p px py n s = .ok t := by
  refine foldlM_agree (fun u r w hrow => ?_) _ h
  obtain ⟨b, hread, hbits⟩ := bind_eq_ok.1 hrow
  rw [drawRow, readByteUnder_of_ok p.memOob hread, ok_bind]
  exact foldlM_agree (drawBit_agree p.dispOob) _ hbits

theorem finish_agree {r r' : Except Fault State} {t : State} (h : ∀ u, r = .ok u → r' = .ok u) (hr : finish r = .next t) :
    finish r' = .next t := by
  obtain ⟨u, hu, rfl⟩ := finish_eq_next.1 hr
  rw [h u hu, finish_ok]

/-- An instruction that answers under `FAULT` and an unbounded stack answers alike under every policy. -/
theorem execUnder_of_next {p : Params} (hp : p.stackDepth = none) {i : Instr} {s t : State} (h : exec i s = .next t) :
    execUnder p i s = .next t := by
  cases i with
  | call nnn =>
    refine Eq.trans ?_ h
    show execCallUnder p nnn s = execCallUnder Params.chosen nnn s
    unfold execCallUnder
    rw [hp]
  | drw x y n => exact finish_agree (fun _ => drawSprite_agree p) h
  | ldBVx x => exact finish_agree (fun _ => storeDigits_agree p.memOob) h
  | ldIVx x => exact finish_agree (fun _ => foldlM_agree (dumpReg_agree p.memOob) _) h
  | ldVxI x => exact finish_agree (fun _ => foldlM_agree (restoreReg_agree p.memOob) _) h
  | _ => exact h

/-- Settles O58: the word fetched in range is fetched under every policy, and its instruction answers alike. -/
theorem completedCycleDoesNotSeeThePolicies : Obligations.CompletedCycleDoesNotSeeThePolicies := by
  intro p s t hp h
  obtain ⟨w, hfetch, hexec⟩ := step_eq_next h
  rw [stepUnder_of_fetch (fetchWordUnder_of_ok p.memOob hfetch)]
  exact execUnder_of_next hp hexec

theorem drawBit_answers (d : DispPolicy) (px py r : Nat) (b : Byte) (s : State) (c : Nat) :
    ∃ t, drawBit (.answers d) px py r b s c = .ok t := by
  unfold drawBit
  split
  · exact bind_answers (dispGetUnder_answers d _ _ s) fun old =>
      bind_answers (dispSetUnder_answers d _ _ _ s) fun u => ⟨_, rfl⟩
  · exact ⟨s, rfl⟩

theorem drawSprite_answers {p : Params} {m : MemPolicy} {d : DispPolicy} (hm : p.memOob = .answers m)
    (hd : p.dispOob = .answers d) (px py n : Nat) (s : State) : ∃ t, drawSprite p px py n s = .ok t := by
  refine foldlM_answers (fun u r => ?_) _ _
  unfold drawRow
  rw [hm, hd]
  exact bind_answers (readByteUnder_answers m _ u) fun b => foldlM_answers (drawBit_answers d px py r b) _ u

theorem storeDigits_answers (m : MemPolicy) (d : Byte) (s : State) : ∃ t, storeDigits (.answers m) d s = .ok t :=
  bind_answers (writeByteUnder_answers m _ _ s) fun s₁ =>
    bind_answers (writeByteUnder_answers m _ _ s₁) fun s₂ => writeByteUnder_answers m _ _ s₂

theorem dumpReg_answers (m : MemPolicy) (s : State) (r : RegIdx) : ∃ t, dumpReg (.answers m) s r = .ok t :=
  bind_answers (writeByteUnder_answers m _ _ s) fun _ => ⟨_, rfl⟩

theorem restoreReg_answers (m : MemPolicy) (s : State) (r : RegIdx) : ∃ t, restoreReg (.answers m) s r = .ok t :=
  bind_answers (readByteUnder_answers m _ s) fun _ => ⟨_, rfl⟩

/-- Where every access is answered and the stack has no bound, every instruction answers. -/
theorem execUnder_answers (m : MemPolicy) (d : DispPolicy) (i : Instr) (s : State) :
    ∃ t, execUnder { memOob := .answers m, dispOob := .answers d, stackDepth := none } i s = .next t := by
  cases i with
  | drw x y n => exact finish_answers (drawSprite_answers rfl rfl _ _ _ s)
  | ldBVx x => exact finish_answers (storeDigits_answers m _ s)
  | ldIVx x => exact finish_answers (foldlM_answers (dumpReg_answers m) _ s)
  | ldVxI x => exact finish_answers (foldlM_answers (restoreReg_answers m) _ s)
  | ret =>
    cases hs : s.stack with
    | nil => exact ⟨_, exec_ret_of_nil hs⟩
    | cons a rest => exact ⟨_, exec_ret_of_cons hs⟩
  | _ => exact ⟨_, rfl⟩

/-- Settles O59: the fetch is answered, and so is every access of the instruction it leads to. -/
theorem policiesThatAnswerNeverStopACycle : Obligations.PoliciesThatAnswerNeverStopACycle := by
  intro m d s
  obtain ⟨w, hw⟩ := fetchWordUnder_answers m s
  obtain ⟨t, ht⟩ := execUnder_answers m d (decodeWord w) s
  exact ⟨t, (stepUnder_of_fetch hw).trans ht⟩

end Sys2Proof.Machine
